-- ==== Sys2Proof/Config.lean ====
section
/-! DEFINITION. The parameters of HFM with the values this hardware takes (`00_scope.md` R6).
There are no build-time options besides them (R7), and the spec leaves no value of the machine open,
so there is no free value here. -/

namespace Sys2Proof.Config

/-- NSYM: distinct symbol values, entries of CT. -/
abbrev nsym : Nat := 256

/-- MAXLEN: the longest code an entry can hold, in bits. -/
abbrev maxLen : Nat := 255

/-- MAXNODES: the most tree nodes alive in one BUILD. -/
abbrev maxNodes : Nat := 511

/-- The number of values of COUNT (COUNT_BITS = 32), and of a weight (WEIGHT_BITS = 32). -/
abbrev countBound : Nat := 4294967296

/-- CMD_BITS: the width of a command word. -/
abbrev cmdBits : Nat := 48

end Sys2Proof.Config
end

