-- ==== Sys2Proof/Word.lean ====
section
/-! DEFINITION. The words, symbols, bits and codes of HFM (`00_scope.md` R8, R12). -/

namespace Sys2Proof

/-- A Symbol is one byte, an unsigned integer in 0..255 (R8). -/
abbrev Symbol := BitVec 8

/-- One item of BI or BO (R41): `false` is the bit 0, `true` the bit 1 (log entry 14). -/
abbrev Bit := Bool

/-- A bit sequence, first bit first (R10). As the content of a code-table entry, `[]` is the absent
entry, since LEN = 0 means absent (R22, R23). -/
abbrev Code := List Bit

/-- A command word (R60). -/
abbrev CmdWord := BitVec 48

/-- A response word (R68). -/
abbrev RspWord := BitVec 80

/-- An entry of CT as the 263-bit register of R23. -/
abbrev EntryWord := BitVec 263

/-- The code table CT (R22): the present entries, by symbol. A symbol that is not listed is absent.
The canonical form is `Machine.CodeTable.wf` (log entry 4). -/
abbrev CodeTable := List (Symbol × Code)

end Sys2Proof
end

