-- ==== Sys2Proof/Syntax.lean ====
section
/-! DEFINITION. The six commands of HFM (`30_encoding.md` R64), one constructor per row of
`spec/opcode_table.json`, with the operands of R63. The rest of a command, its payload, comes on SI or
BI (`20_memory.md` R43). -/

namespace Sys2Proof

/-- The commands. COUNT and CLEN are numbers of items and stand as natural numbers; their widths are
checked in WellFormed.lean (log entry 12). SYM is a symbol, NE one flag. -/
inductive Instr where
  /-- BUILD, format C: build the code table of `count` symbols from SI; `ne` requires at least one. -/
  | build (ne : Bool) (count : Nat)
  /-- ENCODE, format C: map `count` symbols from SI to bits. -/
  | encode (count : Nat)
  /-- DECODE, format C: parse `count` bits from BI into symbols. -/
  | decode (count : Nat)
  /-- LOADT, format T: write entry `sym` with the `clen` bits taken from BI. -/
  | loadt (sym : Symbol) (clen : Nat)
  /-- READT, format T: emit the code of entry `sym`. -/
  | readt (sym : Symbol)
  /-- CLRT, format N: make every entry absent. -/
  | clrt
  deriving DecidableEq, Repr

end Sys2Proof
end

