-- ==== Sys2Proof/WellFormed.lean ====
section
/-! DEFINITION. Which commands a command word can hold: the widths of the operands
(`30_encoding.md` R63). -/

namespace Sys2Proof

/-- COUNT is 0..4294967295 for BUILD, ENCODE and DECODE, and CLEN is 0..255 for LOADT (R63). SYM is
8 bits and NE one bit by their types, and READT and CLRT have nothing else. -/
def Instr.wellFormed : Instr → Bool
  | .build _ count => decide (count < Config.countBound)
  | .encode count => decide (count < Config.countBound)
  | .decode count => decide (count < Config.countBound)
  | .loadt _ clen => decide (clen ≤ Config.maxLen)
  | .readt _ => true
  | .clrt => true

/-- A command is well formed. -/
abbrev Instr.WellFormed (i : Instr) : Prop := i.wellFormed = true

end Sys2Proof
end

