-- ==== Sys2Proof/Decode.lean ====
section
/-! DEFINITION. From command words to commands and back (`30_encoding.md` R60 to R65). `decodeWord` is
total: it answers `none` exactly for the illegal words of R65. The encoder is written from the same
table. -/

namespace Sys2Proof

/-! ## Fields of a command word (R61, R62, R63) -/

/-- OP, bits [47:40]. -/
def opField (w : CmdWord) : BitVec 8 := w.extractLsb' 40 8

/-- FLAGS, bits [39:32]. -/
def flagsField (w : CmdWord) : BitVec 8 := w.extractLsb' 32 8

/-- ARG, bits [31:0]. -/
def argField (w : CmdWord) : BitVec 32 := w.extractLsb' 0 32

/-- NE = FLAGS[0]. -/
def neField (w : CmdWord) : Bool := (flagsField w).getLsbD 0

/-- COUNT = ARG[31:0], as it stands. -/
def countField (w : CmdWord) : Nat := (argField w).toNat

/-- ARG[31:16], reserved in formats T and N. -/
def argHighField (w : CmdWord) : BitVec 16 := (argField w).extractLsb' 16 16

/-- SYM = ARG[15:8]. -/
def symField (w : CmdWord) : Symbol := (argField w).extractLsb' 8 8

/-- ARG[7:0]: CLEN of LOADT, reserved in READT and CLRT. -/
def argLowField (w : CmdWord) : BitVec 8 := (argField w).extractLsb' 0 8

/-- CLEN = ARG[7:0], as it stands. -/
def clenField (w : CmdWord) : Nat := (argLowField w).toNat

/-! ## The table of R64 -/

/-- One row of R64: a word `w` is that command exactly when `w &&& mask = pattern`. -/
structure Row where
  mask : CmdWord
  pattern : CmdWord
  deriving DecidableEq, Repr

/-- A word is the command of a row (R64). -/
def Row.matches (r : Row) (w : CmdWord) : Bool := decide (w &&& r.mask = r.pattern)

/-- The row of BUILD. -/
def buildRow : Row := ⟨0xFFFE00000000#48, 0x010000000000#48⟩
/-- The row of ENCODE. -/
def encodeRow : Row := ⟨0xFFFF00000000#48, 0x020000000000#48⟩
/-- The row of DECODE. -/
def decodeRow : Row := ⟨0xFFFF00000000#48, 0x030000000000#48⟩
/-- The row of LOADT. -/
def loadtRow : Row := ⟨0xFFFFFFFF0000#48, 0x040000000000#48⟩
/-- The row of READT. -/
def readtRow : Row := ⟨0xFFFFFFFF00FF#48, 0x050000000000#48⟩
/-- The row of CLRT. -/
def clrtRow : Row := ⟨0xFFFFFFFFFFFF#48, 0x060000000000#48⟩

/-- The rows of R64 in the table's order. -/
def rows : List Row := [buildRow, encodeRow, decodeRow, loadtRow, readtRow, clrtRow]

/-- The command of a word: the row it matches, with the bits outside the mask as operands (R63, R64);
`none` for an illegal word (R65). -/
def decodeWord (w : CmdWord) : Option Instr :=
  if buildRow.matches w then some (.build (neField w) (countField w))
  else if encodeRow.matches w then some (.encode (countField w))
  else if decodeRow.matches w then some (.decode (countField w))
  else if loadtRow.matches w then some (.loadt (symField w) (clenField w))
  else if readtRow.matches w then some (.readt (symField w))
  else if clrtRow.matches w then some .clrt
  else none

/-! ## The encoder -/

/-- The command word with the given OP, FLAGS and ARG (R61). -/
def packCmd (op flags : BitVec 8) (arg : BitVec 32) : CmdWord := op ++ flags ++ arg

/-- ARG of format T (R62): reserved zeros, SYM, and CLEN or zeros. -/
def packTableArg (sym : Symbol) (low : BitVec 8) : BitVec 32 := 0#16 ++ sym ++ low

/-- The word of a well-formed command: the OP of R64 and the operands in the places of R61 and R62. -/
def encodeWord : Instr → CmdWord
  | .build ne count => packCmd 0x01#8 (if ne then 1#8 else 0#8) (BitVec.ofNat 32 count)
  | .encode count => packCmd 0x02#8 0#8 (BitVec.ofNat 32 count)
  | .decode count => packCmd 0x03#8 0#8 (BitVec.ofNat 32 count)
  | .loadt sym clen => packCmd 0x04#8 0#8 (packTableArg sym (BitVec.ofNat 8 clen))
  | .readt sym => packCmd 0x05#8 0#8 (packTableArg sym 0#8)
  | .clrt => packCmd 0x06#8 0#8 0#32

/-! ## Words numbered as the opcode table numbers them -/

/-- The command word whose low `nbits` bits are those of `w` and whose other bits are 0. The table's
numbering, bit 0 the least significant of the one 48-bit word, is R9's. -/
def tableWord (nbits w : Nat) : CmdWord := BitVec.ofNat 48 (w % 2 ^ nbits)

/-- What the decoder reads from that word. Every command is exactly one 48-bit word (R60), so a
longer one is no command (log entry 17). -/
def decodeTableWord (nbits w : Nat) : Option Instr :=
  if nbits ≤ Config.cmdBits then decodeWord (tableWord nbits w) else none

end Sys2Proof
end

