-- ==== Sys2Proof/Machine/State.lean ====
section
/-! DEFINITION. The state of HFM (`10_state.md` R21, R22, R36, R38), why a step could stop, and the
state after reset. -/

namespace Sys2Proof.Machine

/-- The sequencer (R20, R38). It is idle between commands; a command that has been taken from CMD and
whose payload has not all arrived is in progress, waiting (R43, R207; log entry 2). -/
inductive Seq where
  | idle
  | waiting (i : Instr)
  deriving DecidableEq, Repr

/-- What HFM holds: the sequencer, the code table CT (R22) and the contents of the six channels (R36,
R41), each a queue with its oldest item first. The working state of a command (R25 to R29) is dead
between commands and is no field (R21, R30; log entry 1). -/
structure State where
  /-- The sequencer. -/
  seq : Seq
  /-- The code table CT. -/
  ct : CodeTable
  /-- CMD, host to HFM: command words. -/
  cmd : List CmdWord
  /-- SI, host to HFM: payload symbols of BUILD and ENCODE. -/
  si : List Symbol
  /-- BI, host to HFM: payload bits of DECODE and LOADT. -/
  bi : List Bit
  /-- RSP, HFM to host: response words. -/
  rsp : List RspWord
  /-- SO, HFM to host: output symbols of DECODE. -/
  so : List Symbol
  /-- BO, HFM to host: output bits of ENCODE and READT. -/
  bo : List Bit
  deriving DecidableEq, Repr

/-- Why HFM could stop with a fault: never. Every error is a status in a response word and HFM goes on
to the next command (R67, R188), so there is no constructor. -/
inductive Fault where
  deriving DecidableEq, Repr

/-- Why the model could refuse a command. -/
inductive Refusal where
  /-- Raised by an arm of `exec` whose command has no meaning yet; safe. No arm raises it. -/
  | notModelled (mnemonic : String)
  deriving DecidableEq, Repr

/-- The state after reset (R38): every entry of CT absent, the channels empty, the sequencer idle. -/
def State.reset : State where
  seq := .idle
  ct := []
  cmd := []
  si := []
  bi := []
  rsp := []
  so := []
  bo := []

end Sys2Proof.Machine
end

