-- ==== Sys2Proof/Machine/Flags.lean ====
section
/-! DEFINITION. HFM has no flags (`10_state.md` R33): "The outcome of a command is carried by the STATUS
field of its response word". This file gives the errors and their codes (`30_encoding.md` R69,
`60_exceptions.md` R180) and the response word (R68). -/

namespace Sys2Proof.Machine

/-- The errors HFM can report; the list is complete (R180). -/
inductive Error where
  | emptyInput
  | missingCode
  | duplicateCode
  | truncatedSequence
  | illegalCommand
  deriving DecidableEq, Repr

/-- The STATUS code of an error (R69). -/
def Error.status : Error → BitVec 8
  | .emptyInput => 0x01#8
  | .missingCode => 0x02#8
  | .duplicateCode => 0x03#8
  | .truncatedSequence => 0x04#8
  | .illegalCommand => 0x05#8

/-- STATUS of a successful command (R69). -/
def statusOk : BitVec 8 := 0x00#8

/-- The response word `{STATUS, OUTLEN, INFO}` (R68). -/
def packRsp (status : BitVec 8) (outlen : BitVec 40) (info : BitVec 32) : RspWord :=
  status ++ outlen ++ info

/-- STATUS, bits [79:72]. -/
def rspStatus (r : RspWord) : BitVec 8 := r.extractLsb' 72 8

/-- OUTLEN, bits [71:32]. -/
def rspOutlen (r : RspWord) : BitVec 40 := r.extractLsb' 32 40

/-- INFO, bits [31:0]. -/
def rspInfo (r : RspWord) : BitVec 32 := r.extractLsb' 0 32

/-- The response of a successful command that put `n` items on its output channel: INFO is 0 (R68). -/
def okRsp (n : Nat) : RspWord := packRsp statusOk (BitVec.ofNat 40 n) 0#32

/-- The response of a failed command: OUTLEN is 0 and INFO what the error records (R68, R188). -/
def errRsp (e : Error) (info : Nat) : RspWord := packRsp e.status 0#40 (BitVec.ofNat 32 info)

end Sys2Proof.Machine
end

