-- ==== Sys2Proof/Machine/Ops.lean ====
section
/-! DEFINITION. The operations every command shares: access to the code-table space
(`20_memory.md` R40, R48), the ends of a command (`60_exceptions.md` R188, `70_reset_and_hazards.md`
R211), taking the next command (`20_memory.md` R50), and the lookup in a list of pairs that the
working maps use. -/

namespace Sys2Proof.Machine

/-! ## The code-table space -/

/-- The canonical form of CT: symbols strictly rising, every listed entry present, no code longer than
MAXLEN (R24 c). -/
abbrev CodeTable.wf (t : CodeTable) : Prop :=
  t.Pairwise (fun a b => a.1 < b.1) ∧ ∀ e ∈ t, e.2 ≠ [] ∧ e.2.length ≤ Config.maxLen

/-- `CT[s]`: the code of an entry, `[]` when it is absent (R11, R22). -/
def CodeTable.read : CodeTable → Symbol → Code
  | [], _ => []
  | (k, c) :: t, s => if k = s then c else CodeTable.read t s

/-- `present(s)`: LEN is not 0 (R11). -/
def CodeTable.present (t : CodeTable) (s : Symbol) : Bool := !(CodeTable.read t s).isEmpty

/-- An entry before a table: listed only when it is present. -/
def CodeTable.list (s : Symbol) (c : Code) (t : CodeTable) : CodeTable :=
  if c.isEmpty then t else (s, c) :: t

/-- `CT[s] <- (|c|, c)` (R11): the entry of `s` becomes `c`, absent when `c` is empty, and every other
entry stays. -/
def CodeTable.write : CodeTable → Symbol → Code → CodeTable
  | [], s, c => CodeTable.list s c []
  | (k, d) :: t, s, c =>
    if k < s then (k, d) :: CodeTable.write t s c
    else if k = s then CodeTable.list s c t
    else CodeTable.list s c ((k, d) :: t)

/-- The empty table: every entry absent (R38). -/
def CodeTable.empty : CodeTable := []

/-- The table that holds exactly the listed codes, every other entry absent: all 256 entries replaced
at once (R48, `40_table_build.md` R114). -/
def CodeTable.ofPairs (codes : List (Symbol × Code)) : CodeTable :=
  codes.foldl (fun t e => CodeTable.write t e.1 e.2) CodeTable.empty

/-! ## An entry as a register (R23) -/

/-- The unsigned integer of a bit sequence whose first bit is its most significant. -/
def codeNat (c : Code) : Nat := c.foldl (fun n b => 2 * n + b.toNat) 0

/-- The 263-bit register of an entry: LEN at [262:255], CODE at [254:0], the code right-aligned with
its first bit at `CODE[LEN-1]`, zeros above (R23). -/
def entryWord (c : Code) : EntryWord := BitVec.ofNat 8 c.length ++ BitVec.ofNat 255 (codeNat c)

/-- LEN of an entry register. -/
def entryLen (e : EntryWord) : BitVec 8 := e.extractLsb' 255 8

/-- CODE of an entry register. -/
def entryCode (e : EntryWord) : BitVec 255 := e.extractLsb' 0 255

/-- The abstract value of an entry register: the LEN bits of CODE, `CODE[LEN-1]` first (R23). -/
def entryBits (e : EntryWord) : Code :=
  (List.range (entryLen e).toNat).map fun i => (entryCode e).getLsbD ((entryLen e).toNat - 1 - i)

/-! ## Maps as lists of pairs -/

/-- The value of the first pair with the given key. -/
def assocFind {κ ν : Type} [DecidableEq κ] (k : κ) : List (κ × ν) → Option ν
  | [] => none
  | (k', v) :: m => if k' = k then some v else assocFind k m

/-! ## What a command's computation yields -/

/-- The result of the computation of ENCODE or DECODE: the output, or the error with its INFO. -/
inductive Result (α : Type) where
  | ok (out : α)
  | fail (e : Error) (info : Nat)
  deriving DecidableEq, Repr

/-! ## The end of a command -/

/-- `respond(OK, outlen, 0)` (R11): one response word, and the command is over (R211). -/
def respond (outlen : Nat) (s : State) : State :=
  { s with rsp := s.rsp ++ [okRsp outlen], seq := .idle }

/-- `raise E(info)` (R188), the analogue of taking an exception: one response word
`{STATUS, 0, INFO}`, nothing on SO or BO, CT as it was, and the sequencer goes on to the next command.
Nothing is saved, and there is no return from it (R190). -/
def raise (e : Error) (info : Nat) (s : State) : State :=
  { s with rsp := s.rsp ++ [errRsp e info], seq := .idle }

/-- `emit_SO(q)` (R11). -/
def emitSO (q : List Symbol) (s : State) : State := { s with so := s.so ++ q }

/-- `emit_BO(q)` (R11). -/
def emitBO (q : List Bit) (s : State) : State := { s with bo := s.bo ++ q }

/-- A command in progress whose payload has not all arrived: HFM waits, with no other effect (R42,
R43, R207; log entry 3). -/
def await (i : Instr) (s : State) : State := { s with seq := .waiting i }

/-! ## Taking the next command -/

/-- What the sequencer does next. -/
inductive Fetched where
  /-- CMD is empty: wait. -/
  | nothing
  /-- Perform a command, in the state left by taking its word. -/
  | command (i : Instr) (s : State)
  /-- The word taken is illegal. -/
  | illegal (s : State)
  deriving DecidableEq, Repr

/-- The sequencer goes on with the command in progress, or takes the next word from CMD (R20, R50) and
decodes it before anything else (R189). A receiver that finds the queue empty waits (R42). -/
def fetch (s : State) : Fetched :=
  match s.seq, s.cmd with
  | .waiting i, _ => .command i { s with seq := .idle }
  | .idle, [] => .nothing
  | .idle, w :: rest =>
    match decodeWord w with
    | some i => .command i { s with cmd := rest }
    | none => .illegal { s with cmd := rest }

/-- An illegal command word: IllegalCommandError with INFO = 0, no payload taken (R65, R185). -/
def illegalWord (s : State) : State := raise .illegalCommand 0 s

end Sys2Proof.Machine
end

