-- ==== Sys2Proof/Machine/Operands.lean ====
section
/-! DEFINITION. The operands of a command that come from the input channels: its payload, whose length
is fixed by the command word and by nothing else (`20_memory.md` R43). -/

namespace Sys2Proof.Machine

/-- The number of symbols a command takes from SI (R43). -/
def siNeed : Instr → Nat
  | .build _ count => count
  | .encode count => count
  | .decode _ => 0
  | .loadt _ _ => 0
  | .readt _ => 0
  | .clrt => 0

/-- The number of bits a command takes from BI (R43). -/
def biNeed : Instr → Nat
  | .build _ _ => 0
  | .encode _ => 0
  | .decode count => count
  | .loadt _ clen => clen
  | .readt _ => 0
  | .clrt => 0

/-- The whole payload of the command has arrived. -/
abbrev payloadReady (i : Instr) (s : State) : Prop := siNeed i ≤ s.si.length ∧ biNeed i ≤ s.bi.length

/-- `take_SI(n)` for a command (R11, R43): its payload and the state without it, `none` while fewer
than `n` symbols have arrived. -/
def takeSI (n : Nat) (s : State) : Option (List Symbol × State) :=
  if n ≤ s.si.length then some (s.si.take n, { s with si := s.si.drop n }) else none

/-- `take_BI(n)` for a command (R11, R43). -/
def takeBI (n : Nat) (s : State) : Option (List Bit × State) :=
  if n ≤ s.bi.length then some (s.bi.take n, { s with bi := s.bi.drop n }) else none

/-- The command `i` with its `n` symbols from SI: `act` on them once all have arrived, else wait. -/
def withSymbols (i : Instr) (n : Nat) (act : List Symbol → State → State) (s : State) :
    Host.Outcome State Fault Refusal :=
  match takeSI n s with
  | some (input, s') => .next (act input s')
  | none => .next (await i s)

/-- The command `i` with its `n` bits from BI. -/
def withBits (i : Instr) (n : Nat) (act : List Bit → State → State) (s : State) :
    Host.Outcome State Fault Refusal :=
  match takeBI n s with
  | some (bits, s') => .next (act bits s')
  | none => .next (await i s)

end Sys2Proof.Machine
end

