-- ==== Sys2Proof/Machine/Build.lean ====
section
/-! DEFINITION. BUILD, the code-table builder (`40_table_build.md` R100 to R117). The four stages stand
in the rules' order: the symbol frequency counter, the weighted node list, the Huffman tree builder,
the code-table deriver. -/

namespace Sys2Proof.Machine

/-! ## Stage 1: SymbolFrequencyCounter (R103, R104) -/

/-- The working state of the counter: FREQ (`10_state.md` R25) and ORD (R26). -/
structure BuildWork where
  freq : Vector Nat Config.nsym
  ord : List Symbol
  deriving DecidableEq, Repr

/-- FREQ[s]. -/
def BuildWork.freqOf (b : BuildWork) (s : Symbol) : Nat := b.freq[s.toNat]'s.isLt

/-- FREQ all zeros, ORD empty. -/
def BuildWork.init : BuildWork where
  freq := Vector.replicate Config.nsym 0
  ord := []

/-- One symbol of the payload: it joins ORD at its first occurrence, and its counter rises (R103). -/
def BuildWork.count (b : BuildWork) (s : Symbol) : BuildWork where
  freq := b.freq.set s.toNat (b.freqOf s + 1) s.isLt
  ord := if b.freqOf s = 0 then b.ord ++ [s] else b.ord

/-- `count_frequencies(input)` (R103). -/
def countFrequencies (input : List Symbol) : BuildWork := input.foldl BuildWork.count BuildWork.init

/-- Place `m` before the first strictly lighter entry, after every entry of at least its weight: the
scan of `insert` (R108). -/
def insertBefore {α : Type} (weight : α → Nat) (m : α) : List α → List α
  | [] => [m]
  | x :: xs => if weight x ≥ weight m then x :: insertBefore weight m xs else m :: x :: xs

/-- `order_pairs(FREQ, ORD)` (R104): the symbols of ORD by descending frequency, equal frequencies in
the order of first occurrence. -/
def orderPairs (b : BuildWork) : List Symbol :=
  b.ord.foldl (fun l s => insertBefore b.freqOf s l) []

/-! ## Stage 2: WeightedNodeList (R105, R107, R108) -/

/-- A tree node (`10_state.md` R28). -/
inductive Node where
  | leaf (sym : Symbol) (weight : Nat)
  | internal (weight : Nat) (left right : Node)
  deriving DecidableEq, Repr

/-- `w(n)` (R28). -/
def Node.weight : Node → Nat
  | .leaf _ w => w
  | .internal w _ _ => w

/-- The Internal node over two children, its weight the sum of theirs (R28, R109). -/
def Node.join (l r : Node) : Node := .internal (l.weight + r.weight) l r

/-- The initial LIST: the leaves in the order of PAIRS (R105). -/
def initialList (b : BuildWork) : List Node := (orderPairs b).map fun s => .leaf s (b.freqOf s)

/-- `removeTwoSmallest` (R107): the last two entries, the one that stood second-to-last first, and the
list without them; `none` for fewer than two entries, which BUILD never meets (R186). -/
def removeTwoSmallest (list : List Node) : Option (Node × Node × List Node) :=
  match list.drop (list.length - 2) with
  | [l, r] => some (l, r, list.take (list.length - 2))
  | _ => none

/-- `insert` (R108). -/
def insertNode (m : Node) (list : List Node) : List Node := insertBefore Node.weight m list

/-! ## Stage 3: HuffmanTreeBuilder (R109, R110) -/

/-- One pass of the merge loop (R109): second-to-last becomes the left child, last the right. -/
def mergeOnce (list : List Node) : List Node :=
  match removeTwoSmallest list with
  | some (l, r, rest) => insertNode (Node.join l r) rest
  | none => list

/-- The merge loop (R109): while the list holds more than two entries. Each pass shortens the list by
one, so as many passes as there are entries suffice (log entry 20). -/
def mergeLoop : Nat → List Node → List Node
  | 0, list => list
  | k + 1, list => if list.length > 2 then mergeLoop k (mergeOnce list) else list

/-- The final root (R110): the two remaining entries, entries[0] left. -/
def finalRoot : List Node → Option Node
  | [l, r] => some (Node.join l r)
  | _ => none

/-- The tree root over an initial list of two or more entries (R109, R110). -/
def buildRoot (list : List Node) : Option Node := finalRoot (mergeLoop list.length list)

/-! ## Stage 4: CodeTableDeriver (R106, R111) -/

/-- `derive(n, acc)` (R111): each leaf's code is its path, 0 to the left and 1 to the right. -/
def deriveCodes : Node → Code → List (Symbol × Code)
  | .leaf s _, acc => [(s, acc)]
  | .internal _ l r, acc => deriveCodes l (acc ++ [false]) ++ deriveCodes r (acc ++ [true])

/-- T of R100: for one leaf the code "0" without a tree (R106), else the codes of the tree. -/
def codesOf (list : List Node) : List (Symbol × Code) :=
  match list with
  | [.leaf s _] => [(s, [false])]
  | _ =>
    match buildRoot list with
    | some root => deriveCodes root []
    | none => []

/-- `buildCodeTable(input)`: every symbol of the payload gets its code, every other entry is absent
(R100, R114). -/
def buildTable (input : List Symbol) : CodeTable :=
  CodeTable.ofPairs (codesOf (initialList (countFrequencies input)))

/-! ## The command -/

/-- What BUILD does once its payload is taken (R100, R102, R114). -/
def buildAct (ne : Bool) (count : Nat) (input : List Symbol) (s : State) : State :=
  if count = 0 then
    if ne then raise .emptyInput 0 s else respond 0 { s with ct := CodeTable.empty }
  else respond 0 { s with ct := buildTable input }

/-- BUILD (R100). -/
def execBuild (ne : Bool) (count : Nat) (s : State) : Host.Outcome State Fault Refusal :=
  withSymbols (.build ne count) count (buildAct ne count) s

end Sys2Proof.Machine
end

