-- ==== Sys2Proof/Machine/Decoder.lean ====
section
/-! DEFINITION. DECODE, the bit-stream parser and code matcher (`42_decode.md` R150 to R160). -/

namespace Sys2Proof.Machine

/-- INV, the inverse mapping from codes to symbols (`10_state.md` R29; log entry 16). -/
abbrev InvMap := List (Code × Symbol)

/-- Phase 1 (R152) over the present entries still to walk: a code already in INV is DuplicateCodeError
at the symbol reached. -/
def invLoop (inv : InvMap) : CodeTable → Result InvMap
  | [] => .ok inv
  | (s, c) :: rest =>
    match assocFind c inv with
    | some _ => .fail .duplicateCode s.toNat
    | none => invLoop (inv ++ [(c, s)]) rest

/-- Phase 1 (R152): the walk over the entries in ascending symbol value. Absent entries take no part,
so the walk over the listed entries, which rise by symbol, is the walk over all 256 (log entry 4). -/
def inverseMap (t : CodeTable) : Result InvMap := invLoop [] t

/-- The inner loop of R150 on the bits from POS on, from length L on: the first length whose prefix is
a code, `none` when the bits run out. `k` bounds the lengths tried; the number of bits left suffices
(log entry 20). -/
def matchLoop (inv : InvMap) (rest : List Bit) : Nat → Nat → Option (Symbol × Nat)
  | 0, _ => none
  | k + 1, len =>
    if len > rest.length then none
    else
      match assocFind (rest.take len) inv with
      | some s => some (s, len)
      | none => matchLoop inv rest k (len + 1)

/-- The shortest prefix of the remaining bits that is a code, with its length (R153). -/
def shortestMatch (inv : InvMap) (rest : List Bit) : Option (Symbol × Nat) :=
  matchLoop inv rest rest.length 1

/-- Phase 2 of R150 from POS on: `rest` is `bits[POS..COUNT)` and `out` the symbols matched so far. No
match is TruncatedSequenceError at POS (R154). Every match takes at least one bit, so `k` = COUNT
rounds suffice (log entry 20). -/
def decodeLoop (inv : InvMap) : Nat → Nat → List Symbol → List Bit → Result (List Symbol)
  | 0, pos, out, rest => if rest.isEmpty then .ok out else .fail .truncatedSequence pos
  | k + 1, pos, out, rest =>
    if rest.isEmpty then .ok out
    else
      match shortestMatch inv rest with
      | some (s, len) => decodeLoop inv k (pos + len) (out ++ [s]) (rest.drop len)
      | none => .fail .truncatedSequence pos

/-- `decode(bits, table)` (R150), a function of the table and the payload alone (R37): phase 1 is
complete before phase 2 starts. -/
def decodeMessage (t : CodeTable) (bits : List Bit) : Result (List Symbol) :=
  match inverseMap t with
  | .ok inv => decodeLoop inv bits.length 0 [] bits
  | .fail e info => .fail e info

/-- What DECODE does once its payload is taken (R150). -/
def decodeAct (bits : List Bit) (s : State) : State :=
  match decodeMessage s.ct bits with
  | .ok out => respond out.length (emitSO out s)
  | .fail e info => raise e info s

/-- DECODE (R150). -/
def execDecode (count : Nat) (s : State) : Host.Outcome State Fault Refusal :=
  withBits (.decode count) count decodeAct s

end Sys2Proof.Machine
end

