-- ==== Sys2Proof/Machine/Encoder.lean ====
section
/-! DEFINITION. ENCODE, the symbol-to-bits mapper (`41_encode.md` R140 to R146). -/

namespace Sys2Proof.Machine

/-- The loop of R140 from payload index `i` on, with the output so far: an absent entry ends it with
MissingCodeError at its index (R142). -/
def encodeLoop (t : CodeTable) (i : Nat) (out : List Bit) : List Symbol → Result (List Bit)
  | [] => .ok out
  | s :: rest =>
    if CodeTable.present t s then encodeLoop t (i + 1) (out ++ CodeTable.read t s) rest
    else .fail .missingCode i

/-- `encode(input, table)` (R140), a function of the table and the payload alone (R37, R146). -/
def encodeMessage (t : CodeTable) (input : List Symbol) : Result (List Bit) := encodeLoop t 0 [] input

/-- What ENCODE does once its payload is taken (R140). -/
def encodeAct (input : List Symbol) (s : State) : State :=
  match encodeMessage s.ct input with
  | .ok out => respond out.length (emitBO out s)
  | .fail e info => raise e info s

/-- ENCODE (R140). -/
def execEncode (count : Nat) (s : State) : Host.Outcome State Fault Refusal :=
  withSymbols (.encode count) count encodeAct s

end Sys2Proof.Machine
end

