-- ==== Sys2Proof/Machine/TableAccess.lean ====
section
/-! DEFINITION. LOADT, READT and CLRT, the code-table access commands (`43_table_access.md` R170 to
R176). -/

namespace Sys2Proof.Machine

/-- What LOADT does once its payload is taken (R170): no validation, and no bits make the entry absent
(R171). -/
def loadtAct (sym : Symbol) (bits : List Bit) (s : State) : State :=
  respond 0 { s with ct := CodeTable.write s.ct sym bits }

/-- LOADT (R170). -/
def execLoadt (sym : Symbol) (clen : Nat) (s : State) : Host.Outcome State Fault Refusal :=
  withBits (.loadt sym clen) clen (loadtAct sym) s

/-- READT (R172). -/
def execReadt (sym : Symbol) (s : State) : Host.Outcome State Fault Refusal :=
  .next (respond (CodeTable.read s.ct sym).length (emitBO (CodeTable.read s.ct sym) s))

/-- CLRT (R174). -/
def execClrt (s : State) : Host.Outcome State Fault Refusal :=
  .next (respond 0 { s with ct := CodeTable.empty })

end Sys2Proof.Machine
end

