-- ==== Sys2Proof/Machine/Dispatch.lean ====
section
/-! DEFINITION. One arm per command (`30_encoding.md` R64). -/

namespace Sys2Proof.Machine

def exec (i : Instr) (s : State) : Host.Outcome State Fault Refusal :=
  match i with
  | .build ne count => Sys2Proof.Machine.execBuild ne count s
  | .encode count => Sys2Proof.Machine.execEncode count s
  | .decode count => Sys2Proof.Machine.execDecode count s
  | .loadt sym clen => Sys2Proof.Machine.execLoadt sym clen s
  | .readt sym => Sys2Proof.Machine.execReadt sym s
  | .clrt => Sys2Proof.Machine.execClrt s

end Sys2Proof.Machine
end

