-- ==== Sys2Proof/Machine/Step.lean ====
section
/-! DEFINITION. One step: the sequencer takes one command and performs it to its end
(`10_state.md` R20, `20_memory.md` R50). -/

namespace Sys2Proof.Machine

/-- With nothing to do HFM waits, which has no effect (`20_memory.md` R42, `60_exceptions.md` R196; log
entry 2). -/
def step (s : State) : Host.Outcome State Fault Refusal :=
  match fetch s with
  | .nothing => .next s
  | .command i s' => exec i s'
  | .illegal s' => .next (illegalWord s')

/-- `s` with a command word at the head of CMD and the sequencer ready to take it. The payload is the
host's to send and is not placed (log entry 9). -/
def State.withFetchWord (s : State) (nbits w : Nat) : State :=
  { s with cmd := tableWord nbits w :: s.cmd, seq := .idle }

end Sys2Proof.Machine
end

