-- ==== Sys2Proof/Machine/HostMoves.lean ====
section
/-! DEFINITION. What the host can do to HFM between steps (`70_reset_and_hazards.md` R200, R208), and the
expansion of the spec's one pseudo-command (`30_encoding.md` R71). -/

namespace Sys2Proof.Machine

/-- The interactions of R208. There is no other way in or out. -/
inductive HostMove where
  /-- Send a command word on CMD. -/
  | sendCmd (w : CmdWord)
  /-- Send symbols on SI. -/
  | sendSI (q : List Symbol)
  /-- Send bits on BI. -/
  | sendBI (q : List Bit)
  /-- Take the oldest response word from RSP. -/
  | takeRsp
  /-- Take the oldest symbol from SO. -/
  | takeSO
  /-- Take the oldest bit from BO. -/
  | takeBO
  /-- The reset event (R200). -/
  | reset
  deriving DecidableEq, Repr

/-- The reset event puts every piece of state to its value after reset, whatever it was; a command in
progress is abandoned with no response (R38, R200; log entry 8). -/
def applyReset (_ : State) : State := State.reset

/-- The state after a host move. Items join a channel at its end and leave at its head (R41, R42); a
take from an empty channel takes nothing, the host waits (R42; log entry 11). -/
def hostMove (m : HostMove) (s : State) : State :=
  match m with
  | .sendCmd w => { s with cmd := s.cmd ++ [w] }
  | .sendSI q => { s with si := s.si ++ q }
  | .sendBI q => { s with bi := s.bi ++ q }
  | .takeRsp => { s with rsp := s.rsp.tail }
  | .takeSO => { s with so := s.so.tail }
  | .takeBO => { s with bo := s.bo.tail }
  | .reset => applyReset s

/-! ## Commands with their payload -/

/-- A command with its payload, as one line of R70's notation. -/
structure Transaction where
  instr : Instr
  symbols : List Symbol
  bits : List Bit
  deriving DecidableEq, Repr

/-- The host sends a command word and its payload. -/
def sendTransaction (tr : Transaction) (s : State) : State :=
  hostMove (.sendCmd (encodeWord tr.instr)) (hostMove (.sendSI tr.symbols) (hostMove (.sendBI tr.bits) s))

/-- The host sends several, one after the other, without waiting for responses (R208). -/
def sendAll (trs : List Transaction) (s : State) : State := trs.foldl (fun s tr => sendTransaction tr s) s

/-- `LOADT sym, "bits"` (R70). -/
def loadtLine (e : Symbol × Code) : Transaction := ⟨.loadt e.1 e.2.length, [], e.2⟩

/-- `CLRT` (R70). -/
def clrtLine : Transaction := ⟨.clrt, [], []⟩

/-- A listed pair into its place: after the pairs of smaller or equal symbol (R71: ascending, and of
two pairs for one symbol the later stays later). -/
def insertPair (e : Symbol × Code) : List (Symbol × Code) → List (Symbol × Code)
  | [] => [e]
  | x :: xs => if x.1 ≤ e.1 then x :: insertPair e xs else e :: x :: xs

/-- `LDTBL` (R71): CLRT, then one LOADT per listed pair, in ascending order of symbol value. -/
def ldtbl (pairs : List (Symbol × Code)) : List Transaction :=
  clrtLine :: (pairs.foldl (fun l e => insertPair e l) []).map loadtLine

end Sys2Proof.Machine
end

