-- ==== Sys2Proof/Safety.lean ====
section
/-! DEFINITION. The terms in which claims about HFM are stated: what a legal response and a good state
are, prefix-free tables, the parse a bit sequence has under a table, and the paths of a tree. -/

namespace Sys2Proof.Machine

/-! ## Good states -/

/-- A response word HFM may produce (`30_encoding.md` R68, R69): STATUS 0x00 to 0x05, INFO 0 on
success, OUTLEN 0 on failure. -/
abbrev legalRsp (r : RspWord) : Prop :=
  (rspStatus r).toNat ≤ 5 ∧ (rspStatus r = statusOk → rspInfo r = 0#32) ∧
    (rspStatus r ≠ statusOk → rspOutlen r = 0#40)

/-- The command in progress, if any, is one a command word can hold. -/
def Seq.wellFormed : Seq → Bool
  | .idle => true
  | .waiting i => i.wellFormed

/-- The invariant of HFM: CT is in canonical form, so that every entry has LEN ≤ 255 (`10_state.md`
R24 c); a command in progress is well formed; every response on RSP is legal. -/
structure Inv (s : State) : Prop where
  table : CodeTable.wf s.ct
  sequencer : s.seq.wellFormed = true
  responses : ∀ r ∈ s.rsp, legalRsp r

/-- The step or the command answers a next state: no fault, no refusal. -/
def Completes (o : Host.Outcome State Fault Refusal) : Prop := ∃ t, o = .next t

/-- The command HFM performs next, taken from CMD or in progress, has its whole payload, or is an
illegal word, which has none (`20_memory.md` R43). -/
def CommandReady (s : State) : Prop :=
  match s.seq, s.cmd with
  | .waiting i, _ => payloadReady i s
  | .idle, [] => False
  | .idle, w :: _ => ∀ i, decodeWord w = some i → payloadReady i s

/-- The symbols a command word takes from SI; an illegal word takes none (`20_memory.md` R43). -/
def wordSymbols (w : CmdWord) : Nat := ((decodeWord w).map siNeed).getD 0

/-- The bits a command word takes from BI. -/
def wordBits (w : CmdWord) : Nat := ((decodeWord w).map biNeed).getD 0

/-! ## Tables -/

/-- Two present entries hold the same code (`42_decode.md` R152). -/
def HasDuplicate (t : CodeTable) : Prop :=
  ∃ a b, a ≠ b ∧ CodeTable.read t a ≠ [] ∧ CodeTable.read t a = CodeTable.read t b

/-- Symbol `s` repeats the code of a smaller present symbol (R152). -/
def DuplicateAt (t : CodeTable) (s : Symbol) : Prop :=
  CodeTable.read t s ≠ [] ∧ ∃ a, a < s ∧ CodeTable.read t a = CodeTable.read t s

/-- No present code is a prefix of another symbol's (`40_table_build.md` R115 a). -/
def PrefixFree (t : CodeTable) : Prop :=
  ∀ a b, a ≠ b → CodeTable.read t a ≠ [] → CodeTable.read t b ≠ [] →
    ¬ CodeTable.read t a <+: CodeTable.read t b

/-- The concatenation of the symbols' codes in order (`41_encode.md` R141). -/
def concatCodes (t : CodeTable) (input : List Symbol) : List Bit := input.flatMap (CodeTable.read t)

/-- The shortest-match rule (`42_decode.md` R153): `bits` begins with the code of `s`, and no shorter
prefix of `bits` is the code of any symbol. -/
def ShortestCodeAt (t : CodeTable) (bits : List Bit) (s : Symbol) : Prop :=
  CodeTable.read t s ≠ [] ∧ CodeTable.read t s <+: bits ∧
    ∀ a, CodeTable.read t a ≠ [] → CodeTable.read t a <+: bits →
      (CodeTable.read t s).length ≤ (CodeTable.read t a).length

/-- `bits` parses into the symbols `out`, the shortest code being taken at each position, with the
bits `rest` left over. -/
inductive Parses (t : CodeTable) : List Bit → List Symbol → List Bit → Prop where
  | done (rest : List Bit) : Parses t rest [] rest
  | more (s : Symbol) (tail rest : List Bit) (out : List Symbol)
      (here : ShortestCodeAt t (CodeTable.read t s ++ tail) s) (after : Parses t tail out rest) :
      Parses t (CodeTable.read t s ++ tail) (s :: out) rest

/-- No prefix of the bits is a code (`42_decode.md` R154). -/
def NoCodeAt (t : CodeTable) (bits : List Bit) : Prop :=
  ∀ a, CodeTable.read t a ≠ [] → ¬ CodeTable.read t a <+: bits

/-! ## Trees -/

/-- The leaves of a tree, left to right, with their weights. -/
def Node.leaves : Node → List (Symbol × Nat)
  | .leaf s w => [(s, w)]
  | .internal _ l r => l.leaves ++ r.leaves

/-- The number of Internal nodes. -/
def Node.internals : Node → Nat
  | .leaf _ _ => 0
  | .internal _ l r => l.internals + r.internals + 1

/-- Every Internal node's weight is the sum of its children's (`10_state.md` R28). -/
def Node.summed : Node → Prop
  | .leaf _ _ => True
  | .internal w l r => w = l.weight + r.weight ∧ l.summed ∧ r.summed

/-- The node at the end of a path from the root: 0 goes left, 1 goes right (`40_table_build.md` R111). -/
def Node.walk : Node → List Bit → Option Node
  | n, [] => some n
  | .leaf _ _, _ :: _ => none
  | .internal _ l _, false :: p => l.walk p
  | .internal _ _ r, true :: p => r.walk p

/-! ## The other decoder mechanism of R159 -/

/-- A binary trie of codes: at a node, the symbol whose code ends there and the two edges. -/
inductive Trie where
  | nil
  | node (here : Option Symbol) (zero one : Trie)
  deriving DecidableEq, Repr

/-- The trie with one more code. -/
def Trie.insert (s : Symbol) : Trie → Code → Trie
  | .nil, [] => .node (some s) .nil .nil
  | .nil, false :: c => .node none (Trie.insert s .nil c) .nil
  | .nil, true :: c => .node none .nil (Trie.insert s .nil c)
  | .node _ z o, [] => .node (some s) z o
  | .node h z o, false :: c => .node h (Trie.insert s z c) o
  | .node h z o, true :: c => .node h z (Trie.insert s o c)

/-- Every present code of a table in one trie (R159). -/
def Trie.ofTable (t : CodeTable) : Trie :=
  t.foldl (fun tr e => Trie.insert e.1 tr e.2) (.node none .nil .nil)

/-- The traverser of R159 over a trie with root `root`: one edge per bit, the symbol emitted and the
walk back at the root at the first node that ends a code. `left` is where the current walk left the
root and `pos` the position reached; a missing edge, or bits running out away from the root, is
TruncatedSequenceError at `left`. -/
def traverse (root : Trie) : Trie → Nat → Nat → List Symbol → List Bit → Result (List Symbol)
  | _, left, pos, out, [] => if left = pos then .ok out else .fail .truncatedSequence left
  | .nil, left, _, _, _ :: _ => .fail .truncatedSequence left
  | .node _ z o, left, pos, out, b :: bits =>
    match (if b then o else z) with
    | .nil => .fail .truncatedSequence left
    | .node (some s) _ _ => traverse root root (pos + 1) (pos + 1) (out ++ [s]) bits
    | .node none z' o' => traverse root (.node none z' o') left (pos + 1) out bits

/-- DECODE by a prefix-tree traverser: the duplicate check of phase 1, then the traversal. -/
def trieDecode (t : CodeTable) (bits : List Bit) : Result (List Symbol) :=
  match inverseMap t with
  | .ok _ => traverse (Trie.ofTable t) (Trie.ofTable t) 0 0 [] bits
  | .fail e info => .fail e info

end Sys2Proof.Machine
end

