-- ==== Sys2Proof/Certificates/Slice0/Obligations.lean ====
section
/-! DEFINITION. The statements about HFM, in the order of the spec's files. Each says in its docstring
which rule it formalises. -/

open Sys2Proof Sys2Proof.Machine

/-! ## Command and response words (`30_encoding.md`) -/

/-- R61 to R64: the word of a well-formed command decodes to that command, with every operand at every
value its field holds. -/
def Obligations.DecodeOfEncodeIsIdentity : Prop :=
  ∀ i : Instr, i.WellFormed → decodeWord (encodeWord i) = some i

/-- R61 to R65: each legal word has one meaning; the word of what it decodes to is the word itself. -/
def Obligations.EncodeOfDecodeIsIdentity : Prop :=
  ∀ (w : CmdWord) (i : Instr), decodeWord w = some i → i.WellFormed ∧ encodeWord i = w

/-- R63, R64: a word is a command exactly when it matches that command's row, and then its operands are
the fields NE = w[32], COUNT = w[31:0], SYM = w[15:8], CLEN = w[7:0]. -/
def Obligations.CommandsAreExactlyTheirRows : Prop :=
  ∀ w : CmdWord,
    (w &&& 0xFFFE00000000#48 = 0x010000000000#48 ↔
      decodeWord w = some (.build (w.getLsbD 32) (w.extractLsb' 0 32).toNat)) ∧
    (w &&& 0xFFFF00000000#48 = 0x020000000000#48 ↔
      decodeWord w = some (.encode (w.extractLsb' 0 32).toNat)) ∧
    (w &&& 0xFFFF00000000#48 = 0x030000000000#48 ↔
      decodeWord w = some (.decode (w.extractLsb' 0 32).toNat)) ∧
    (w &&& 0xFFFFFFFF0000#48 = 0x040000000000#48 ↔
      decodeWord w = some (.loadt (w.extractLsb' 8 8) (w.extractLsb' 0 8).toNat)) ∧
    (w &&& 0xFFFFFFFF00FF#48 = 0x050000000000#48 ↔
      decodeWord w = some (.readt (w.extractLsb' 8 8))) ∧
    (w &&& 0xFFFFFFFFFFFF#48 = 0x060000000000#48 ↔ decodeWord w = some .clrt) ∧
    (∀ ne count, decodeWord w = some (.build ne count) → w &&& 0xFFFE00000000#48 = 0x010000000000#48) ∧
    (∀ count, decodeWord w = some (.encode count) → w &&& 0xFFFF00000000#48 = 0x020000000000#48) ∧
    (∀ count, decodeWord w = some (.decode count) → w &&& 0xFFFF00000000#48 = 0x030000000000#48) ∧
    (∀ sym clen, decodeWord w = some (.loadt sym clen) →
      w &&& 0xFFFFFFFF0000#48 = 0x040000000000#48) ∧
    (∀ sym, decodeWord w = some (.readt sym) → w &&& 0xFFFFFFFF00FF#48 = 0x050000000000#48)

/-- R65, R185: the illegal words are those of R65's list, the zero word among them, and one that HFM
takes from CMD is answered with IllegalCommandError and INFO 0, takes no payload, produces no output
and leaves CT and everything else unchanged. -/
def Obligations.IllegalWordsAreListedAndOnlyAnswered : Prop :=
  (∀ w : CmdWord, decodeWord w = none ↔
    let op := w.extractLsb' 40 8
    let flags := w.extractLsb' 32 8
    op = 0x00#8 ∨ 0x07#8 ≤ op ∨
      (op = 0x01#8 ∧ flags.extractLsb' 1 7 ≠ 0#7) ∨
      (0x02#8 ≤ op ∧ op ≤ 0x06#8 ∧ flags ≠ 0#8) ∨
      (op = 0x04#8 ∧ w.extractLsb' 16 16 ≠ 0#16) ∨
      (op = 0x05#8 ∧ (w.extractLsb' 16 16 ≠ 0#16 ∨ w.extractLsb' 0 8 ≠ 0#8)) ∨
      (op = 0x06#8 ∧ w.extractLsb' 0 32 ≠ 0#32)) ∧
  decodeWord 0x000000000000#48 = none ∧
  ∀ (s : State) (w : CmdWord) (rest : List CmdWord),
    s.seq = .idle → s.cmd = w :: rest → decodeWord w = none →
      step s = .next { s with cmd := rest, rsp := s.rsp ++ [0x05000000000000000000#80] }

/-- R72: the worked encodings of commands and responses. -/
def Obligations.WorkedEncodingsDecodeAndEncode : Prop :=
  decodeWord 0x01000000000E#48 = some (.build false 14) ∧
  decodeWord 0x010100000000#48 = some (.build true 0) ∧
  decodeWord 0x020000000004#48 = some (.encode 4) ∧
  decodeWord 0x030000000025#48 = some (.decode 37) ∧
  decodeWord 0x040000006101#48 = some (.loadt 0x61#8 1) ∧
  decodeWord 0x040000006200#48 = some (.loadt 0x62#8 0) ∧
  decodeWord 0x050000006100#48 = some (.readt 0x61#8) ∧
  decodeWord 0x060000000000#48 = some .clrt ∧
  decodeWord 0x020100000004#48 = none ∧
  decodeWord 0x050000006101#48 = none ∧
  encodeWord (.build false 14) = 0x01000000000E#48 ∧
  encodeWord (.build true 0) = 0x010100000000#48 ∧
  encodeWord (.encode 4) = 0x020000000004#48 ∧
  encodeWord (.decode 37) = 0x030000000025#48 ∧
  encodeWord (.loadt 0x61#8 1) = 0x040000006101#48 ∧
  encodeWord (.loadt 0x62#8 0) = 0x040000006200#48 ∧
  encodeWord (.readt 0x61#8) = 0x050000006100#48 ∧
  encodeWord .clrt = 0x060000000000#48 ∧
  okRsp 37 = 0x00000000002500000000#80 ∧
  errRsp .missingCode 1 = 0x02000000000000000001#80 ∧
  errRsp .truncatedSequence 33 = 0x04000000000000000021#80

/-- R68, R69: the fields of a response word are where R68 puts them; a success has STATUS 0x00 and
INFO 0, an error its code and OUTLEN 0. -/
def Obligations.ResponseWordsHoldTheirFields : Prop :=
  (∀ (st : BitVec 8) (n : BitVec 40) (info : BitVec 32),
    (packRsp st n info).extractLsb' 72 8 = st ∧ (packRsp st n info).extractLsb' 32 40 = n ∧
      (packRsp st n info).extractLsb' 0 32 = info ∧
      (packRsp st n info).toNat = st.toNat * 2 ^ 72 + n.toNat * 2 ^ 32 + info.toNat) ∧
  (∀ n : Nat, n < 2 ^ 40 →
    (okRsp n).extractLsb' 72 8 = 0x00#8 ∧ ((okRsp n).extractLsb' 32 40).toNat = n ∧
      (okRsp n).extractLsb' 0 32 = 0#32) ∧
  ∀ (e : Error) (info : Nat), info < 2 ^ 32 →
    (errRsp e info).extractLsb' 32 40 = 0#40 ∧ ((errRsp e info).extractLsb' 0 32).toNat = info ∧
      (errRsp e info).extractLsb' 72 8 =
        match e with
        | .emptyInput => 0x01#8
        | .missingCode => 0x02#8
        | .duplicateCode => 0x03#8
        | .truncatedSequence => 0x04#8
        | .illegalCommand => 0x05#8

/-! ## State (`10_state.md`) -/

/-- R23: the register of an entry. LEN is the code's length, 0 exactly for the absent entry; the first
bit of the code is `CODE[LEN-1]` and its last `CODE[0]`; the bits above are 0; and the abstract value
read back from the register is the code. -/
def Obligations.EntryRegisterHoldsTheCode : Prop :=
  ∀ code : Code, code.length ≤ 255 →
    ((entryWord code).extractLsb' 255 8).toNat = code.length ∧
    ((entryWord code).extractLsb' 255 8 = 0#8 ↔ code = []) ∧
    (∀ i, i < code.length → code[i]? = some ((entryWord code).getLsbD (code.length - 1 - i))) ∧
    (∀ j, code.length ≤ j → j < 255 → (entryWord code).getLsbD j = false) ∧
    entryBits (entryWord code) = code

/-- R38, R200: the reset event, applied in any state, leaves every entry of CT with LEN 0 and CODE 0,
every channel empty and the sequencer idle, which is the state after reset. -/
def Obligations.ResetLeavesTheValuesOfTheTable : Prop :=
  ∀ s : State,
    hostMove .reset s = State.reset ∧
    (∀ sym, entryWord (CodeTable.read (hostMove .reset s).ct sym) = 0#263) ∧
    (hostMove .reset s).cmd = [] ∧ (hostMove .reset s).si = [] ∧ (hostMove .reset s).bi = [] ∧
    (hostMove .reset s).rsp = [] ∧ (hostMove .reset s).so = [] ∧ (hostMove .reset s).bo = [] ∧
    (hostMove .reset s).seq = .idle

/-- R24 c, R68, R69: every step keeps the invariant, from every state that meets it. CT stays in the
model's canonical form (log entry 4), so every LEN is at most 255; the command in progress (log entry 2)
stays well formed; every response is legal. -/
def Obligations.EveryStepKeepsTheInvariant : Prop :=
  ∀ s t : State, Inv s → step s = .next t → Inv t

/-- The invariant holds after reset. -/
def Obligations.ResetMeetsTheInvariant : Prop := Inv State.reset

/-- R22, R55: a step that changes CT performed a BUILD, a LOADT or a CLRT; in particular ENCODE, DECODE
and READT leave CT unchanged, whether they succeed, fail or wait. -/
def Obligations.OnlyTableCommandsChangeTheTable : Prop :=
  (∀ s t : State, step s = .next t → t.ct ≠ s.ct →
    ∃ i s', fetch s = .command i s' ∧
      ((∃ ne count, i = .build ne count) ∨ (∃ sym clen, i = .loadt sym clen) ∨ i = .clrt)) ∧
  ∀ s t : State,
    (∀ count, exec (.encode count) s = .next t → t.ct = s.ct) ∧
    (∀ count, exec (.decode count) s = .next t → t.ct = s.ct) ∧
    (∀ sym, exec (.readt sym) s = .next t → t.ct = s.ct)

/-- R30, R146: what a command does depends on CT and its payload alone. Two states with the same CT
and the same payload at the head of the input channels give the same CT, the same output and the same
response. -/
def Obligations.ResultsDependOnTableAndPayloadOnly : Prop :=
  ∀ (i : Instr) (s s' : State),
    payloadReady i s → payloadReady i s' → s.ct = s'.ct →
    s.si.take (siNeed i) = s'.si.take (siNeed i) → s.bi.take (biNeed i) = s'.bi.take (biNeed i) →
    ∃ t t' r outS outB,
      exec i s = .next t ∧ exec i s' = .next t' ∧ t.ct = t'.ct ∧
      t.rsp = s.rsp ++ [r] ∧ t'.rsp = s'.rsp ++ [r] ∧
      t.so = s.so ++ outS ∧ t'.so = s'.so ++ outS ∧ t.bo = s.bo ++ outB ∧ t'.bo = s'.bo ++ outB

/-! ## Channels, framing and ordering (`20_memory.md`, `70_reset_and_hazards.md`) -/

/-- R20, R50: a step performs the decoded command. From an idle sequencer it takes the head of CMD and
runs the command the word decodes to in the state without that word; a command in progress (log entry
2) is gone on with. -/
def Obligations.StepRunsTheDecodedCommand : Prop :=
  (∀ (s : State) (w : CmdWord) (rest : List CmdWord) (i : Instr),
    s.seq = .idle → s.cmd = w :: rest → decodeWord w = some i →
      step s = exec i { s with cmd := rest }) ∧
  ∀ (s : State) (i : Instr), s.seq = .waiting i → step s = exec i { s with seq := .idle }

/-- R42, R43, R207: with CMD empty HFM waits, with no effect; a command whose payload has not all
arrived waits, taking nothing and answering nothing; and while nothing arrives it waits for ever, no
later command being started. That a wait is a step is the model's choice, log entry 2; that a waiting
command leaves the items that have arrived in SI and BI is the model's choice, log entry 3. -/
def Obligations.WaitingHasNoEffect : Prop :=
  (∀ s : State, s.seq = .idle → s.cmd = [] → step s = .next s) ∧
  (∀ (i : Instr) (s : State), ¬ payloadReady i s → exec i s = .next { s with seq := .waiting i }) ∧
  ∀ (i : Instr) (s : State) (k : Nat), s.seq = .waiting i → ¬ payloadReady i s →
    core.run k s = .next s

/-- R43: BUILD and ENCODE take exactly COUNT symbols from SI, DECODE exactly COUNT bits and LOADT
exactly CLEN bits from BI, READT and CLRT nothing, whether the command succeeds or fails; an illegal
word takes nothing. -/
def Obligations.CommandsTakeExactlyTheirPayload : Prop :=
  (∀ (i : Instr) (s : State), payloadReady i s → ∃ t, exec i s = .next t ∧
    match i with
    | .build _ count => t.si = s.si.drop count ∧ t.bi = s.bi
    | .encode count => t.si = s.si.drop count ∧ t.bi = s.bi
    | .decode count => t.si = s.si ∧ t.bi = s.bi.drop count
    | .loadt _ clen => t.si = s.si ∧ t.bi = s.bi.drop clen
    | .readt _ => t.si = s.si ∧ t.bi = s.bi
    | .clrt => t.si = s.si ∧ t.bi = s.bi) ∧
  ∀ (s : State) (w : CmdWord) (rest : List CmdWord), s.seq = .idle → s.cmd = w :: rest →
    decodeWord w = none → ∃ t, step s = .next t ∧ t.si = s.si ∧ t.bi = s.bi

/-- R44: a command puts exactly OUTLEN items on its output channel, SO for DECODE and BO for ENCODE and
READT, after the items of earlier commands; a failed command puts nothing there and its OUTLEN is 0. -/
def Obligations.OutputsAreExactlyOutlenItems : Prop :=
  ∀ (i : Instr) (s : State), Inv s → i.WellFormed → payloadReady i s →
    ∃ t r outS outB, exec i s = .next t ∧
      t.rsp = s.rsp ++ [r] ∧ t.so = s.so ++ outS ∧ t.bo = s.bo ++ outB ∧
      (rspOutlen r).toNat = outS.length + outB.length ∧
      (rspStatus r ≠ 0x00#8 → outS = [] ∧ outB = [] ∧ rspOutlen r = 0#40) ∧
      match i with
      | .build _ _ => outS = [] ∧ outB = []
      | .encode _ => outS = []
      | .decode _ => outB = []
      | .loadt _ _ => outS = [] ∧ outB = []
      | .readt _ => outS = []
      | .clrt => outS = [] ∧ outB = []

/-- R67: every command word, legal or illegal, is answered by exactly one response word, in command
order; then the sequencer is idle with the next word of CMD before it, whatever the status. -/
def Obligations.EveryCommandWordIsAnsweredOnce : Prop :=
  (∀ (s : State) (w : CmdWord) (rest : List CmdWord), s.seq = .idle → s.cmd = w :: rest →
    CommandReady s →
      ∃ t r, step s = .next t ∧ t.rsp = s.rsp ++ [r] ∧ t.cmd = rest ∧ t.seq = .idle) ∧
  ∀ (s : State) (i : Instr), s.seq = .waiting i → CommandReady s →
      ∃ t r, step s = .next t ∧ t.rsp = s.rsp ++ [r] ∧ t.cmd = s.cmd ∧ t.seq = .idle

/-- R50, R211: when the payloads of all the words on CMD have arrived, as many steps as there are words
empty CMD and leave HFM waiting for the next word, with as many responses added as there were words and
their payloads together taken from SI and BI. -/
def Obligations.QueuedCommandsAllComplete : Prop :=
  ∀ s : State, s.seq = .idle →
    (s.cmd.map wordSymbols).sum ≤ s.si.length → (s.cmd.map wordBits).sum ≤ s.bi.length →
    ∃ t rs, core.run s.cmd.length s = .next t ∧ t.cmd = [] ∧ t.seq = .idle ∧
      t.rsp = s.rsp ++ rs ∧ rs.length = s.cmd.length ∧
      t.si = s.si.drop (s.cmd.map wordSymbols).sum ∧ t.bi = s.bi.drop (s.cmd.map wordBits).sum

/-- R67, R187, R196: HFM never stops. Every step and every command answers a next state; for one that
waits this is the model's choice, log entry 2. -/
def Obligations.NoStepFaultsOrRefuses : Prop :=
  (∀ s : State, Completes (step s)) ∧ ∀ (i : Instr) (s : State), Completes (exec i s)

/-- R42, R208: the host may send the next command and its payload before the response arrives, and
take items at any pace. What it sends behind a command that has its payload, and what it takes of
items already there, does not change what the step does. -/
def Obligations.HostMovesCommuteWithSteps : Prop :=
  (∀ (s t : State) (m : HostMove), CommandReady s → step s = .next t →
    (∃ w, m = .sendCmd w) ∨ (∃ q, m = .sendSI q) ∨ (∃ q, m = .sendBI q) →
      step (hostMove m s) = .next (hostMove m t)) ∧
  ∀ (s t : State), step s = .next t →
    (s.rsp ≠ [] → step (hostMove .takeRsp s) = .next (hostMove .takeRsp t)) ∧
    (s.so ≠ [] → step (hostMove .takeSO s) = .next (hostMove .takeSO t)) ∧
    (s.bo ≠ [] → step (hostMove .takeBO s) = .next (hostMove .takeBO t))

/-- R201, for ENCODE, DECODE and READT: on the empty table ENCODE and DECODE of an empty payload answer
OK, ENCODE of a non-empty one MissingCodeError with INFO 0, DECODE of a non-empty one
TruncatedSequenceError with INFO 0, and READT answers OUTLEN 0 for every symbol; nothing else changes
but the payload taken. -/
def Obligations.EmptyTableIsUsable : Prop :=
  ∀ s : State, s.ct = State.reset.ct → s.seq = .idle →
    exec (.encode 0) s = .next { s with rsp := s.rsp ++ [0x00000000000000000000#80] } ∧
    exec (.decode 0) s = .next { s with rsp := s.rsp ++ [0x00000000000000000000#80] } ∧
    (∀ count, 1 ≤ count → count ≤ s.si.length → exec (.encode count) s =
      .next { s with si := s.si.drop count, rsp := s.rsp ++ [0x02000000000000000000#80] }) ∧
    (∀ count, 1 ≤ count → count ≤ s.bi.length → exec (.decode count) s =
      .next { s with bi := s.bi.drop count, rsp := s.rsp ++ [0x04000000000000000000#80] }) ∧
    ∀ sym, exec (.readt sym) s = .next { s with rsp := s.rsp ++ [0x00000000000000000000#80] }

/-! ## Errors (`60_exceptions.md`) -/

/-- R188, R190: a failed command has taken its whole payload, has put one response word with OUTLEN 0
on RSP, and has changed nothing else: CT, SO, BO and CMD are as before and the sequencer is idle. An
illegal word has no payload and is answered in the same way. -/
def Obligations.FailedCommandsChangeNothingElse : Prop :=
  (∀ (i : Instr) (s t : State) (r : RspWord), payloadReady i s → exec i s = .next t →
    t.rsp = s.rsp ++ [r] → rspStatus r ≠ 0x00#8 →
      t = { s with si := s.si.drop (siNeed i), bi := s.bi.drop (biNeed i),
                   rsp := s.rsp ++ [r], seq := .idle } ∧
      rspOutlen r = 0#40) ∧
  ∀ s : State, ∃ r, illegalWord s = { s with rsp := s.rsp ++ [r], seq := .idle } ∧
    rspStatus r ≠ 0x00#8 ∧ rspOutlen r = 0#40

/-- R69, R180: which command answers which status. Nothing else is ever produced. -/
def Obligations.StatusesAreThoseOfTheirCommands : Prop :=
  ∀ (i : Instr) (s t : State) (r : RspWord), payloadReady i s → exec i s = .next t →
    t.rsp = s.rsp ++ [r] →
      match i with
      | .build _ _ => rspStatus r = 0x00#8 ∨ rspStatus r = 0x01#8
      | .encode _ => rspStatus r = 0x00#8 ∨ rspStatus r = 0x02#8
      | .decode _ => rspStatus r = 0x00#8 ∨ rspStatus r = 0x03#8 ∨ rspStatus r = 0x04#8
      | .loadt _ _ => rspStatus r = 0x00#8
      | .readt _ => rspStatus r = 0x00#8
      | .clrt => rspStatus r = 0x00#8

/-! ## BUILD (`40_table_build.md`) -/

/-- R102, R181: BUILD of no symbols makes every entry absent and answers OK when NE = 0; when NE = 1 it
answers EmptyInputError with INFO 0 and leaves CT as it was. With COUNT ≥ 1 NE has no effect and there
is no error. -/
def Obligations.BuildOfEmptyPayload : Prop :=
  (∀ s : State, ∃ t, exec (.build false 0) s = .next t ∧
    (∀ sym, CodeTable.read t.ct sym = []) ∧
    t = { s with ct := t.ct, rsp := s.rsp ++ [0x00000000000000000000#80], seq := .idle }) ∧
  (∀ s : State, exec (.build true 0) s =
    .next { s with rsp := s.rsp ++ [0x01000000000000000000#80], seq := .idle }) ∧
  ∀ (count : Nat) (s : State), 1 ≤ count → count ≤ s.si.length →
    ∃ t, exec (.build true count) s = .next t ∧ exec (.build false count) s = .next t ∧
      t.rsp = s.rsp ++ [0x00000000000000000000#80]

/-- R100, R114: BUILD of at least one symbol takes its payload, answers OK and replaces the whole table:
every symbol of the payload gets the code the tree gives it, every other entry becomes absent, and
nothing else changes. -/
def Obligations.BuildReplacesTheWholeTable : Prop :=
  ∀ (ne : Bool) (count : Nat) (s : State), 1 ≤ count → count ≤ s.si.length →
    let input := s.si.take count
    let codes := codesOf (initialList (countFrequencies input))
    ∃ ct, exec (.build ne count) s =
        .next { s with si := s.si.drop count, ct := ct,
                       rsp := s.rsp ++ [0x00000000000000000000#80], seq := .idle } ∧
      (∀ sym, sym ∈ input → CodeTable.read ct sym ≠ [] ∧ (sym, CodeTable.read ct sym) ∈ codes) ∧
      ∀ sym, sym ∉ input → CodeTable.read ct sym = []

/-- R103: after the count FREQ[s] is the number of occurrences of s, ORD lists each occurring symbol
once, in increasing order of first occurrence, and the sum of all FREQ is COUNT. -/
def Obligations.FrequencyCountIsExact : Prop :=
  ∀ input : List Symbol,
    let b := countFrequencies input
    (∀ s, b.freqOf s = input.count s) ∧ b.ord.Nodup ∧ (∀ s, s ∈ b.ord ↔ 1 ≤ b.freqOf s) ∧
      b.ord.Pairwise (fun s t => input.idxOf s < input.idxOf t) ∧ b.freq.toList.sum = input.length

/-- R104: PAIRS is the arrangement of the symbols of ORD by descending frequency, equal frequencies by
first occurrence, and it is the only one. -/
def Obligations.PairsAreInTheUniqueOrder : Prop :=
  ∀ input : List Symbol,
    let b := countFrequencies input
    let before := fun s t : Symbol =>
      b.freqOf s > b.freqOf t ∨ (b.freqOf s = b.freqOf t ∧ input.idxOf s < input.idxOf t)
    (orderPairs b).Perm b.ord ∧ (orderPairs b).Pairwise before ∧
      ∀ l : List Symbol, l.Perm b.ord → l.Pairwise before → l = orderPairs b

/-- R105: LIST starts as the leaves in the order of PAIRS, in non-increasing order of weight, and it is
the list that inserting them one by one would give. -/
def Obligations.InitialListIsTheSortedLeaves : Prop :=
  ∀ input : List Symbol,
    let b := countFrequencies input
    let leaves := (orderPairs b).map fun s => Node.leaf s (b.freqOf s)
    initialList b = leaves ∧ leaves.Pairwise (fun m n => m.weight ≥ n.weight) ∧
      initialList b = leaves.foldl (fun l m => insertNode m l) []

/-- R106: one symbol repeated gets the single entry "0" and no other symbol is present. -/
def Obligations.OneDistinctSymbolGetsZero : Prop :=
  ∀ (ne : Bool) (sym : Symbol) (count : Nat) (s : State), 1 ≤ count → count ≤ s.si.length →
    s.si.take count = List.replicate count sym →
      ∃ t, exec (.build ne count) s = .next t ∧ CodeTable.read t.ct sym = [false] ∧
        ∀ x, x ≠ sym → CodeTable.read t.ct x = []

/-- R107: removeTwoSmallest takes the last two entries, the one that stood last second, and leaves the
rest; in a list in order the first of the two is at least as heavy. -/
def Obligations.RemoveTwoSmallestTakesTheLastTwo : Prop :=
  ∀ (rest : List Node) (l r : Node),
    removeTwoSmallest (rest ++ [l, r]) = some (l, r, rest) ∧
      ((rest ++ [l, r]).Pairwise (fun m n => m.weight ≥ n.weight) → l.weight ≥ r.weight)

/-- R108: insert puts the node before the first strictly lighter entry, at the front when that is the
first and at the end when there is none, and keeps the list non-increasing. -/
def Obligations.InsertGoesBeforeTheFirstLighter : Prop :=
  ∀ (m : Node) (list : List Node),
    (∃ i, i ≤ list.length ∧ insertNode m list = list.take i ++ [m] ++ list.drop i ∧
      (∀ n ∈ list.take i, n.weight ≥ m.weight) ∧ ∀ n, list[i]? = some n → n.weight < m.weight) ∧
    (list.Pairwise (fun m n => m.weight ≥ n.weight) →
      (insertNode m list).Pairwise (fun m n => m.weight ≥ n.weight))

/-- R109, R110: one pass on a list of more than two entries joins the last two, second-to-last left and
last right, and inserts the new node; the loop stops at two entries, which the root joins, the first
left; with two entries from the start the loop does not run. -/
def Obligations.MergeLoopBuildsTheRoot : Prop :=
  (∀ (rest : List Node) (l r : Node), rest ≠ [] →
    mergeOnce (rest ++ [l, r]) = insertNode (.internal (l.weight + r.weight) l r) rest ∧
    (mergeOnce (rest ++ [l, r])).length = (rest ++ [l, r]).length - 1 ∧
    buildRoot (rest ++ [l, r]) = buildRoot (mergeOnce (rest ++ [l, r]))) ∧
  (∀ l r : Node, buildRoot [l, r] = some (.internal (l.weight + r.weight) l r)) ∧
  ∀ list : List Node, 2 ≤ list.length →
    (mergeLoop (list.length - 2) list).length = 2 ∧
    mergeLoop list.length list = mergeLoop (list.length - 2) list

/-- R112: for n distinct symbols, 2 ≤ n ≤ 256, n - 2 passes leave two entries, and the result is a tree
with the n leaves of PAIRS and n - 1 Internal nodes, at most 511 nodes in all, and every code has 1 to
n - 1 ≤ 255 bits. -/
def Obligations.TreeHasTheCountedNodes : Prop :=
  ∀ input : List Symbol,
    let b := countFrequencies input
    let n := b.ord.length
    n ≤ 256 ∧ (2 ≤ n → (mergeLoop (n - 2) (initialList b)).length = 2 ∧ ∃ root, buildRoot (initialList b) = some root ∧
      root.leaves.Perm ((orderPairs b).map fun s => (s, b.freqOf s)) ∧
      root.leaves.length = n ∧ root.internals = n - 1 ∧
      root.leaves.length + root.internals ≤ Config.maxNodes ∧
      ∀ e ∈ codesOf (initialList b), 1 ≤ e.2.length ∧ e.2.length ≤ n - 1)

/-- R113, R28: an Internal node's weight is the sum of its children's; the weight of any node of the
tree is the number of payload symbols whose leaves lie under it, so at most COUNT, and the root's is
COUNT. -/
def Obligations.NodeWeightsCountThePayload : Prop :=
  ∀ (input : List Symbol) (root : Node),
    buildRoot (initialList (countFrequencies input)) = some root →
      root.summed ∧ root.weight = input.length ∧
      ∀ (p : List Bit) (m : Node), root.walk p = some m →
        m.weight = input.countP (fun s => decide (s ∈ m.leaves.map Prod.fst)) ∧
        m.weight ≤ input.length

/-- R111: the deriver records for each leaf the path from the node to it, 0 left and 1 right, after the
bits accumulated so far, and nothing else. -/
def Obligations.DerivedCodesAreLeafPaths : Prop :=
  ∀ (n : Node) (acc : Code) (s : Symbol) (c : Code),
    (s, c) ∈ deriveCodes n acc ↔ ∃ p w, c = acc ++ p ∧ n.walk p = some (.leaf s w)

/-- R115 a and d, R24 a: the table a BUILD leaves is prefix-free, and its present entries are exactly
the distinct symbols of the payload. -/
def Obligations.BuiltTablesArePrefixFree : Prop :=
  ∀ (ne : Bool) (count : Nat) (s : State), 1 ≤ count → count ≤ s.si.length →
    ∃ t, exec (.build ne count) s = .next t ∧ PrefixFree t.ct ∧
      ∀ sym, CodeTable.read t.ct sym ≠ [] ↔ sym ∈ s.si.take count

/-- R115 b, R30: BUILD is deterministic whatever CT and the rest of the state held before. -/
def Obligations.BuildIgnoresThePreviousTable : Prop :=
  ∀ (ne ne' : Bool) (count : Nat) (s s' : State), 1 ≤ count →
    count ≤ s.si.length → s.si.take count = s'.si.take count → count ≤ s'.si.length →
      ∃ t t', exec (.build ne count) s = .next t ∧ exec (.build ne' count) s' = .next t' ∧ t.ct = t'.ct

/-- R116: a symbol of strictly higher frequency has no longer code; with equal frequencies the lengths
may differ, as in "abc", whose bytes here are those of ASCII (R8;
PRESUMED, log entry 15). -/
def Obligations.HigherFrequencyHasNoLongerCode : Prop :=
  (∀ (input : List Symbol) (a b : Symbol), b ∈ input → input.count a > input.count b →
    (CodeTable.read (buildTable input) a).length ≤ (CodeTable.read (buildTable input) b).length) ∧
  CodeTable.read (buildTable [0x61#8, 0x62#8, 0x63#8]) 0x61#8 = [true] ∧
  CodeTable.read (buildTable [0x61#8, 0x62#8, 0x63#8]) 0x62#8 = [false, false]

/-! ## ENCODE (`41_encode.md`) -/

/-- R140, R141: with every payload symbol present ENCODE takes its payload, puts the concatenation of the
codes on BO, answers OK with OUTLEN the sum of their lengths, and changes nothing else, whatever else
CT holds. -/
def Obligations.EncodeConcatenatesTheCodes : Prop :=
  ∀ (count : Nat) (s : State), count ≤ s.si.length →
    (∀ x ∈ s.si.take count, CodeTable.read s.ct x ≠ []) →
      exec (.encode count) s =
        .next { s with si := s.si.drop count,
                       bo := s.bo ++ ((s.si.take count).map (CodeTable.read s.ct)).flatten,
                       rsp := s.rsp ++ [packRsp 0x00#8 (BitVec.ofNat 40
                         ((s.si.take count).map fun x => (CodeTable.read s.ct x).length).sum) 0#32],
                       seq := .idle }

/-- R142, R182: at the first payload symbol that is absent ENCODE fails with MissingCodeError and INFO
its index; it puts nothing on BO, leaves CT unchanged and has taken the whole payload. -/
def Obligations.EncodeReportsTheFirstMissingCode : Prop :=
  ∀ (count i : Nat) (s : State) (x : Symbol), count ≤ s.si.length → i < count →
    s.si[i]? = some x → CodeTable.read s.ct x = [] →
    (∀ j y, j < i → s.si[j]? = some y → CodeTable.read s.ct y ≠ []) →
      exec (.encode count) s =
        .next { s with si := s.si.drop count,
                       rsp := s.rsp ++ [packRsp 0x02#8 0#40 (BitVec.ofNat 32 i)], seq := .idle }

/-- R143: ENCODE of an empty payload takes nothing, puts nothing on BO and answers OK with OUTLEN 0,
whatever CT holds. -/
def Obligations.EncodeOfEmptyPayload : Prop :=
  ∀ s : State, exec (.encode 0) s =
    .next { s with rsp := s.rsp ++ [0x00000000000000000000#80], seq := .idle }

/-- R145: after a successful BUILD p, ENCODE q succeeds exactly when every symbol of q occurs in p, and ENCODE p has
OUTLEN the sum over the distinct symbols of frequency times code length. -/
def Obligations.EncodeAfterBuild : Prop :=
  ∀ (ne : Bool) (s t : State) (count : Nat), (1 ≤ count ∨ ne = false) → count ≤ s.si.length →
    exec (.build ne count) s = .next t →
      let p := s.si.take count
      (∀ (u : State) (k : Nat), u.ct = t.ct → k ≤ u.si.length →
        ∃ v r, exec (.encode k) u = .next v ∧ v.rsp = u.rsp ++ [r] ∧
          (rspStatus r = 0x00#8 ↔ ∀ x ∈ u.si.take k, x ∈ p)) ∧
      ∀ (u : State), u.ct = t.ct → count ≤ u.si.length → u.si.take count = p →
        ∃ v out, exec (.encode count) u = .next v ∧ v.bo = u.bo ++ out ∧
          v.rsp = u.rsp ++ [okRsp out.length] ∧
          out.length =
            (p.eraseDups.map fun x => p.count x * (CodeTable.read t.ct x).length).sum

/-! ## DECODE (`42_decode.md`) -/

/-- R152, R183: when two present entries hold the same code DECODE fails with DuplicateCodeError, INFO
the smallest symbol that repeats the code of a smaller one, whatever the payload, which is taken;
nothing goes to SO and CT is unchanged. Without such entries the error does not occur. -/
def Obligations.DecodeReportsDuplicateCodes : Prop :=
  (∀ (count : Nat) (s : State) (x : Symbol), CodeTable.wf s.ct → count ≤ s.bi.length →
    DuplicateAt s.ct x → (∀ y, y < x → ¬ DuplicateAt s.ct y) →
      exec (.decode count) s =
        .next { s with bi := s.bi.drop count,
                       rsp := s.rsp ++ [packRsp 0x03#8 0#40 (BitVec.ofNat 32 x.toNat)],
                       seq := .idle }) ∧
  ∀ (count : Nat) (s : State), CodeTable.wf s.ct → count ≤ s.bi.length → ¬ HasDuplicate s.ct →
    ∃ t r, exec (.decode count) s = .next t ∧ t.rsp = s.rsp ++ [r] ∧ rspStatus r ≠ 0x03#8

/-- R150, R153: when the payload parses to the end, the shortest code being taken at each position,
DECODE puts the symbols on SO, answers OK with OUTLEN their number, has taken its payload, and changes
nothing else. -/
def Obligations.DecodeTakesTheShortestMatch : Prop :=
  ∀ (count : Nat) (s : State) (out : List Symbol), CodeTable.wf s.ct → count ≤ s.bi.length →
    ¬ HasDuplicate s.ct → Parses s.ct (s.bi.take count) out [] →
      exec (.decode count) s =
        .next { s with bi := s.bi.drop count, so := s.so ++ out,
                       rsp := s.rsp ++ [packRsp 0x00#8 (BitVec.ofNat 40 out.length) 0#32],
                       seq := .idle }

/-- R154, R184: when the parse comes to bits of which no prefix is a code, DECODE fails with
TruncatedSequenceError, INFO the position of the first of those bits; nothing goes to SO, not even the
symbols matched before, CT is unchanged and the whole payload is taken. -/
def Obligations.DecodeReportsTheUnmatchedPosition : Prop :=
  ∀ (count : Nat) (s : State) (out : List Symbol) (rest : List Bit),
    CodeTable.wf s.ct → count ≤ s.bi.length → ¬ HasDuplicate s.ct →
    Parses s.ct (s.bi.take count) out rest → rest ≠ [] → NoCodeAt s.ct rest →
      exec (.decode count) s =
        .next { s with bi := s.bi.drop count,
                       rsp := s.rsp ++ [packRsp 0x04#8 0#40 (BitVec.ofNat 32 (count - rest.length))],
                       seq := .idle }

/-- R153, R154: under every table every bit sequence parses either to its end or to bits of which no
prefix is a code, and without duplicate codes in one way only, so that the two statements before this
one cover every DECODE that passes the duplicate check. -/
def Obligations.EveryBitSequenceHasOneParse : Prop :=
  (∀ (t : CodeTable) (bits : List Bit),
    ∃ out rest, Parses t bits out rest ∧ (rest = [] ∨ NoCodeAt t rest)) ∧
  ∀ (t : CodeTable) (bits : List Bit) (out out' : List Symbol) (rest rest' : List Bit),
    ¬ HasDuplicate t → Parses t bits out rest → (rest = [] ∨ NoCodeAt t rest) →
    Parses t bits out' rest' → (rest' = [] ∨ NoCodeAt t rest') → out = out' ∧ rest = rest'

/-- R155: DECODE of an empty payload answers OK with OUTLEN 0 unless the table has duplicate codes, which
it reports; with the empty table and a non-empty payload the answer is TruncatedSequenceError, INFO 0. -/
def Obligations.DecodeEmptyCases : Prop :=
  (∀ s : State, CodeTable.wf s.ct → ¬ HasDuplicate s.ct → exec (.decode 0) s =
    .next { s with rsp := s.rsp ++ [0x00000000000000000000#80], seq := .idle }) ∧
  (∀ s : State, CodeTable.wf s.ct → HasDuplicate s.ct →
    ∃ t r, exec (.decode 0) s = .next t ∧ t.rsp = s.rsp ++ [r] ∧ rspStatus r = 0x03#8) ∧
  ∀ (count : Nat) (s : State), s.ct = CodeTable.empty → 1 ≤ count → count ≤ s.bi.length →
    exec (.decode count) s =
      .next { s with bi := s.bi.drop count, rsp := s.rsp ++ [0x04000000000000000000#80],
                     seq := .idle }

/-- R156: under a prefix-free table the first match is the only one. If the bits begin with the code of
s, the matcher finds s there, and no other symbol's code begins there. -/
def Obligations.FirstMatchIsTheOnlyMatch : Prop :=
  ∀ (t : CodeTable) (inv : InvMap) (s : Symbol) (tail : List Bit),
    CodeTable.wf t → PrefixFree t → CodeTable.read t s ≠ [] → inverseMap t = .ok inv →
      shortestMatch inv (CodeTable.read t s ++ tail) = some (s, (CodeTable.read t s).length) ∧
      ∀ a, CodeTable.read t a ≠ [] → CodeTable.read t a <+: CodeTable.read t s ++ tail → a = s

/-- R157: under a table that is not prefix-free the longer of two codes, one a prefix of the other, is
never matched; and the worked example: with a = "0", b = "01", ENCODE "b" gives "01" and DECODE "01"
answers TruncatedSequenceError with INFO 1; a and b are their bytes in ASCII (R8;
PRESUMED, log entry 15). -/
def Obligations.LongerCodeIsShadowedByItsPrefix : Prop :=
  (∀ (t : CodeTable) (inv : InvMap) (a b : Symbol) (bits : List Bit) (len : Nat),
    CodeTable.wf t → inverseMap t = .ok inv → a ≠ b → CodeTable.read t a ≠ [] →
    CodeTable.read t a <+: CodeTable.read t b → shortestMatch inv bits ≠ some (b, len)) ∧
  encodeMessage [(0x61#8, [false]), (0x62#8, [false, true])] [0x62#8] = .ok [false, true] ∧
  decodeMessage [(0x61#8, [false]), (0x62#8, [false, true])] [false, true] = .fail .truncatedSequence 1

/-- R158: after BUILD S with S not empty, ENCODE of any message Q whose symbols occur in S answers OK
with some bits E, and DECODE E then answers OK with output Q, provided CT is unchanged in between. -/
def Obligations.DecodeOfEncodeAfterBuildIsTheMessage : Prop :=
  ∀ (ne : Bool) (count k : Nat) (s t u : State),
    1 ≤ count → count ≤ s.si.length → exec (.build ne count) s = .next t →
    u.ct = t.ct → k ≤ u.si.length → (∀ x ∈ u.si.take k, x ∈ s.si.take count) →
      ∃ bits v, exec (.encode k) u = .next v ∧ v.bo = u.bo ++ bits ∧
        v.rsp = u.rsp ++ [okRsp bits.length] ∧ v.ct = t.ct ∧
        ∀ x : State, x.ct = v.ct → bits.length ≤ x.bi.length → x.bi.take bits.length = bits →
          ∃ y, exec (.decode bits.length) x = .next y ∧ y.so = x.so ++ u.si.take k ∧
            y.rsp = x.rsp ++ [okRsp k]

/-- R160: under a prefix-free table, a prefix of a message that ends at a boundary between codes decodes
to the prefix of the message; one that ends inside a code answers TruncatedSequenceError with INFO the
position where that code starts. -/
def Obligations.PrefixesOfAMessageDecodeOrAreTruncated : Prop :=
  ∀ (msg : List Symbol) (k : Nat) (s : State), CodeTable.wf s.ct → PrefixFree s.ct →
    (∀ x ∈ msg, CodeTable.read s.ct x ≠ []) →
    let whole := concatCodes s.ct (msg.take k)
    (whole.length ≤ s.bi.length → s.bi.take whole.length = whole →
      ∃ t, exec (.decode whole.length) s = .next t ∧ t.so = s.so ++ msg.take k ∧
        t.rsp = s.rsp ++ [okRsp (msg.take k).length]) ∧
    ∀ (x : Symbol) (p : List Bit), msg[k]? = some x → p ≠ [] → p <+: CodeTable.read s.ct x →
      p ≠ CodeTable.read s.ct x → (whole ++ p).length ≤ s.bi.length →
      s.bi.take (whole ++ p).length = whole ++ p →
        ∃ t, exec (.decode (whole ++ p).length) s = .next t ∧ t.so = s.so ∧
          t.rsp = s.rsp ++ [errRsp .truncatedSequence whole.length]

/-- R159: a prefix-tree traverser, and a matcher that stops at length 255, give the same result as the
code matcher on every table, prefix-free or not. -/
def Obligations.OtherDecoderMechanismsAgree : Prop :=
  (∀ (t : CodeTable) (bits : List Bit), CodeTable.wf t → trieDecode t bits = decodeMessage t bits) ∧
  ∀ (t : CodeTable) (inv : InvMap) (rest : List Bit), CodeTable.wf t → inverseMap t = .ok inv →
    matchLoop inv rest Config.maxLen 1 = shortestMatch inv rest

/-! ## LOADT, READT, CLRT (`43_table_access.md`) -/

/-- R170: LOADT takes its CLEN bits, writes them as the code of the entry SYM, CLEN = 0 making it
absent, and answers OK; the other 255 entries and everything else are unchanged. -/
def Obligations.LoadtWritesOneEntry : Prop :=
  ∀ (sym : Symbol) (clen : Nat) (s : State), CodeTable.wf s.ct → clen ≤ s.bi.length →
    ∃ ct, exec (.loadt sym clen) s =
        .next { s with bi := s.bi.drop clen, ct := ct,
                       rsp := s.rsp ++ [0x00000000000000000000#80], seq := .idle } ∧
      CodeTable.read ct sym = s.bi.take clen ∧
      ∀ other, other ≠ sym → CodeTable.read ct other = CodeTable.read s.ct other

/-- R45, R53: READT right after LOADT emits the bits LOADT took, in the same order, with nothing in
between, and OUTLEN their number. -/
def Obligations.ReadtAfterLoadtGivesTheBits : Prop :=
  ∀ (sym : Symbol) (clen : Nat) (s : State), CodeTable.wf s.ct → clen ≤ s.bi.length →
    ∃ t u, exec (.loadt sym clen) s = .next t ∧ exec (.readt sym) t = .next u ∧
      u.bo = s.bo ++ s.bi.take clen ∧
      u.rsp = s.rsp ++ [0x00000000000000000000#80, packRsp 0x00#8 (BitVec.ofNat 40 clen) 0#32]

/-- R172: READT puts the code of its entry on BO, nothing for an absent entry, answers OK with OUTLEN the
entry's LEN, 0 exactly when it is absent, and changes nothing else. -/
def Obligations.ReadtEmitsTheCode : Prop :=
  ∀ (sym : Symbol) (s : State), CodeTable.wf s.ct →
    exec (.readt sym) s =
      .next { s with bo := s.bo ++ CodeTable.read s.ct sym,
                     rsp := s.rsp ++ [okRsp (CodeTable.read s.ct sym).length], seq := .idle } ∧
    (rspOutlen (okRsp (CodeTable.read s.ct sym).length)).toNat = (CodeTable.read s.ct sym).length ∧
    (rspOutlen (okRsp (CodeTable.read s.ct sym).length) = 0#40 ↔ CodeTable.read s.ct sym = [])

/-- R174: CLRT makes every entry absent and answers OK, with nothing else changed; CT is then its reset
value and what BUILD of no symbols with NE = 0 leaves. -/
def Obligations.ClrtEmptiesTheTable : Prop :=
  ∀ s : State, ∃ ct,
    exec .clrt s = .next { s with ct := ct, rsp := s.rsp ++ [0x00000000000000000000#80],
                                  seq := .idle } ∧
    (∀ sym, entryWord (CodeTable.read ct sym) = 0#263) ∧ ct = State.reset.ct ∧
    exec (.build false 0) s = exec .clrt s

/-- R71: LDTBL, sent to an idle HFM with empty input channels, leaves CT with exactly the listed
entries, of two pairs for one symbol the later; every response is OK and nothing is put on SO or BO. -/
def Obligations.LdtblLoadsExactlyTheList : Prop :=
  ∀ (pairs : List (Symbol × Code)) (s : State), (∀ e ∈ pairs, e.2.length ≤ 255) →
    s.seq = .idle → s.cmd = [] → s.si = [] → s.bi = [] →
      ∃ ct, core.run (ldtbl pairs).length (sendAll (ldtbl pairs) s) =
          .next { s with ct := ct, rsp := s.rsp ++
            List.replicate (pairs.length + 1) 0x00000000000000000000#80 } ∧
        ∀ sym, CodeTable.read ct sym = (assocFind sym pairs.reverse).getD []

/-- R173, R206 with the canonical form of log entry 4: two tables that READT cannot tell apart are the
same data, and loading all of a table's entries into an emptied HFM gives that table. -/
def Obligations.TableTransferGivesTheSameTable : Prop :=
  (∀ t u : CodeTable, CodeTable.wf t → CodeTable.wf u →
    (∀ sym, CodeTable.read t sym = CodeTable.read u sym) → t = u) ∧
  ∀ (t : CodeTable) (s : State), CodeTable.wf t → s.seq = .idle → s.cmd = [] → s.si = [] →
    s.bi = [] → ∃ u, core.run (ldtbl t).length (sendAll (ldtbl t) s) = .next u ∧ u.ct = t
end

