-- ==== Sys2Proof/Laws/Build.lean ====
section
/-! SUPPORT. What the operations of BUILD's node list do to the list's members, length and order. -/

namespace Sys2Proof.Machine

/-! ## The scan of `insert` (R108) -/

theorem insertBefore_perm {α : Type} (weight : α → Nat) (m : α) (l : List α) :
    (insertBefore weight m l).Perm (m :: l) := by
  induction l with
  | nil => exact List.Perm.refl _
  | cons x l ih =>
    unfold insertBefore
    split
    · exact (ih.cons x).trans (List.Perm.swap m x l)
    · exact List.Perm.refl _

@[simp] theorem insertBefore_length {α : Type} (weight : α → Nat) (m : α) (l : List α) :
    (insertBefore weight m l).length = l.length + 1 := by
  simpa using (insertBefore_perm weight m l).length_eq

theorem mem_insertBefore {α : Type} {weight : α → Nat} {m x : α} {l : List α} :
    x ∈ insertBefore weight m l ↔ x = m ∨ x ∈ l := by
  simpa using (insertBefore_perm weight m l).mem_iff

/-- The scan keeps a list in non-increasing order of weight. -/
theorem insertBefore_sorted {α : Type} {weight : α → Nat} {m : α} {l : List α}
    (h : l.Pairwise fun a b => weight a ≥ weight b) :
    (insertBefore weight m l).Pairwise fun a b => weight a ≥ weight b := by
  induction l with
  | nil => simp [insertBefore]
  | cons x l ih =>
    rw [List.pairwise_cons] at h
    unfold insertBefore
    split
    · rename_i hx
      refine List.pairwise_cons.2 ⟨fun y hy => ?_, ih h.2⟩
      rcases mem_insertBefore.1 hy with rfl | hy
      · exact hx
      · exact h.1 y hy
    · rename_i hx
      refine List.pairwise_cons.2 ⟨fun y hy => ?_, List.pairwise_cons.2 h⟩
      rcases List.mem_cons.1 hy with rfl | hy
      · omega
      · have := h.1 y hy; omega

/-! ## Trees (R109, R111) -/

@[simp] theorem weight_leaf (s : Symbol) (w : Nat) : (Node.leaf s w).weight = w := rfl

@[simp] theorem weight_join (l r : Node) : (Node.join l r).weight = l.weight + r.weight := rfl

@[simp] theorem leaves_join (l r : Node) : (Node.join l r).leaves = l.leaves ++ r.leaves := rfl

@[simp] theorem internals_join (l r : Node) :
    (Node.join l r).internals = l.internals + r.internals + 1 := rfl

/-- A tree has one leaf more than Internal nodes. -/
theorem leaves_length (n : Node) : n.leaves.length = n.internals + 1 := by
  induction n with
  | leaf s w => rfl
  | internal w l r ihl ihr => simp only [Node.leaves, Node.internals, List.length_append, ihl, ihr]; omega

/-- The deriver gives one code to each leaf, in the leaves' order. -/
theorem deriveCodes_symbols (n : Node) (acc : Code) :
    (deriveCodes n acc).map Prod.fst = n.leaves.map Prod.fst := by
  induction n generalizing acc with
  | leaf s w => rfl
  | internal w l r ihl ihr => simp [deriveCodes, Node.leaves, ihl, ihr]

/-- A code is longer than the accumulated bits by at most the number of Internal nodes. -/
theorem deriveCodes_length {n : Node} {acc : Code} {e : Symbol × Code} (h : e ∈ deriveCodes n acc) :
    acc.length ≤ e.2.length ∧ e.2.length ≤ acc.length + n.internals := by
  induction n generalizing acc with
  | leaf s w => simp only [deriveCodes, List.mem_singleton] at h; simp [h]
  | internal w l r ihl ihr =>
    simp only [Node.internals]
    rcases List.mem_append.1 h with h | h
    · have := ihl h; simp only [List.length_append, List.length_singleton] at this; omega
    · have := ihr h; simp only [List.length_append, List.length_singleton] at this; omega

end Sys2Proof.Machine
end

