-- ==== Sys2Proof/Laws/Table.lean ====
section
/-! SUPPORT. The laws of the code-table space: a read after a write, the canonical form kept by every
operation, and what is listed in a canonical table. -/

namespace Sys2Proof.Machine

/-! ## Reading -/

@[simp] theorem read_nil (s : Symbol) : CodeTable.read [] s = [] := rfl

theorem read_cons (k : Symbol) (c : Code) (t : CodeTable) (s : Symbol) :
    CodeTable.read ((k, c) :: t) s = if k = s then c else CodeTable.read t s := rfl

@[simp] theorem read_cons_self (k : Symbol) (c : Code) (t : CodeTable) :
    CodeTable.read ((k, c) :: t) k = c := by simp [read_cons]

/-- A symbol that is not listed is absent. -/
theorem read_eq_nil_of_not_listed {t : CodeTable} {s : Symbol} (h : ∀ e ∈ t, e.1 ≠ s) :
    CodeTable.read t s = [] := by
  induction t with
  | nil => rfl
  | cons e t ih =>
    obtain ⟨k, c⟩ := e
    have hk : k ≠ s := h (k, c) (by simp)
    simp only [read_cons, if_neg hk]
    exact ih fun e he => h e (by simp [he])

/-- What reads as present is listed. -/
theorem mem_of_read_ne_nil {t : CodeTable} {s : Symbol} (h : CodeTable.read t s ≠ []) :
    (s, CodeTable.read t s) ∈ t := by
  induction t with
  | nil => exact absurd rfl h
  | cons e t ih =>
    obtain ⟨k, c⟩ := e
    by_cases hk : k = s
    · subst hk; simp
    · simp only [read_cons, if_neg hk] at h ⊢
      exact List.mem_cons_of_mem _ (ih h)

/-- In a canonical table every listed pair is what its symbol reads as. -/
theorem read_of_mem {t : CodeTable} (hwf : CodeTable.wf t) {s : Symbol} {c : Code} (h : (s, c) ∈ t) :
    CodeTable.read t s = c := by
  induction t with
  | nil => cases h
  | cons e t ih =>
    obtain ⟨k, d⟩ := e
    obtain ⟨hp, hall⟩ := hwf
    rw [List.pairwise_cons] at hp
    rcases List.mem_cons.1 h with h | h
    · cases h; simp
    · have hk : k ≠ s := by
        intro hks; subst hks; exact absurd (hp.1 _ h) (by simp)
      simp only [read_cons, if_neg hk]
      exact ih ⟨hp.2, fun e he => hall e (by simp [he])⟩ h

/-- In a canonical table a symbol is present exactly when it is listed. -/
theorem mem_iff_read {t : CodeTable} (hwf : CodeTable.wf t) {s : Symbol} {c : Code} :
    (s, c) ∈ t ↔ c ≠ [] ∧ CodeTable.read t s = c := by
  constructor
  · exact fun h => ⟨(hwf.2 _ h).1, read_of_mem hwf h⟩
  · rintro ⟨hc, rfl⟩; exact mem_of_read_ne_nil hc

/-- No entry of a canonical table is longer than MAXLEN. -/
theorem read_length_le {t : CodeTable} (hwf : CodeTable.wf t) (s : Symbol) :
    (CodeTable.read t s).length ≤ Config.maxLen := by
  by_cases h : CodeTable.read t s = []
  · simp [h]
  · exact (hwf.2 _ (mem_of_read_ne_nil h)).2

@[simp] theorem present_iff {t : CodeTable} {s : Symbol} :
    CodeTable.present t s = true ↔ CodeTable.read t s ≠ [] := by
  simp [CodeTable.present]

/-! ## Writing -/

theorem wf_tail {e : Symbol × Code} {t : CodeTable} (h : CodeTable.wf (e :: t)) : CodeTable.wf t :=
  ⟨(List.pairwise_cons.1 h.1).2, fun e' he => h.2 e' (by simp [he])⟩

theorem head_lt {e : Symbol × Code} {t : CodeTable} (h : CodeTable.wf (e :: t)) :
    ∀ f ∈ t, e.1 < f.1 := (List.pairwise_cons.1 h.1).1

/-- A symbol below every listed one is absent. -/
theorem read_eq_nil_of_lt {t : CodeTable} {s : Symbol} (h : ∀ e ∈ t, s < e.1) :
    CodeTable.read t s = [] :=
  read_eq_nil_of_not_listed fun e he heq => absurd (h e he) (by simp [heq])

/-- Listing an entry before a table of larger symbols: what it reads as. -/
theorem read_list {t : CodeTable} {s : Symbol} {c : Code} (h : ∀ e ∈ t, s < e.1) (x : Symbol) :
    CodeTable.read (CodeTable.list s c t) x = if x = s then c else CodeTable.read t x := by
  unfold CodeTable.list
  by_cases hc : c = []
  · subst hc
    by_cases hx : x = s
    · subst hx; simp [read_eq_nil_of_lt h]
    · simp [hx]
  · rw [if_neg (by simpa using hc), read_cons]
    by_cases hx : x = s
    · simp [hx]
    · rw [if_neg hx, if_neg (Ne.symm hx)]

/-- Listing an entry before a table of larger symbols keeps the canonical form. -/
theorem wf_list {t : CodeTable} {s : Symbol} {c : Code} (hwf : CodeTable.wf t)
    (h : ∀ e ∈ t, s < e.1) (hc : c.length ≤ Config.maxLen) : CodeTable.wf (CodeTable.list s c t) := by
  unfold CodeTable.list
  split
  · exact hwf
  · rename_i hne
    refine ⟨List.pairwise_cons.2 ⟨h, hwf.1⟩, ?_⟩
    intro e he
    rcases List.mem_cons.1 he with rfl | he
    · exact ⟨by simpa using hne, hc⟩
    · exact hwf.2 e he

theorem mem_list {t : CodeTable} {s : Symbol} {c : Code} {e : Symbol × Code}
    (h : e ∈ CodeTable.list s c t) : e = (s, c) ∨ e ∈ t := by
  unfold CodeTable.list at h
  split at h
  · exact .inr h
  · exact List.mem_cons.1 h

theorem mem_write {t : CodeTable} {s : Symbol} {c : Code} {e : Symbol × Code}
    (h : e ∈ CodeTable.write t s c) : e.1 = s ∨ e ∈ t := by
  induction t with
  | nil => rcases mem_list h with rfl | h <;> simp_all
  | cons f t ih =>
    obtain ⟨k, d⟩ := f
    unfold CodeTable.write at h
    split at h
    · rcases List.mem_cons.1 h with rfl | h
      · simp
      · rcases ih h with h | h <;> simp [h]
    · split at h
      · rcases mem_list h with rfl | h
        · simp
        · simp [h]
      · rcases mem_list h with rfl | h
        · simp
        · exact .inr h

theorem lt_of_not_lt_of_ne {k s : Symbol} (h₁ : ¬ k < s) (h₂ : k ≠ s) : s < k := by
  simp only [BitVec.lt_def] at *
  have : k.toNat ≠ s.toNat := fun h => h₂ (BitVec.eq_of_toNat_eq h)
  omega

theorem symbol_lt_trans {a b c : Symbol} (h₁ : a < b) (h₂ : b < c) : a < c := by
  simp only [BitVec.lt_def] at *; omega

/-- A read after a write: the written entry has the code, every other entry is as it was. -/
theorem read_write {t : CodeTable} (hwf : CodeTable.wf t) (s : Symbol) (c : Code) (x : Symbol) :
    CodeTable.read (CodeTable.write t s c) x = if x = s then c else CodeTable.read t x := by
  induction t with
  | nil => exact read_list (by simp) x
  | cons e t ih =>
    obtain ⟨k, d⟩ := e
    unfold CodeTable.write
    split
    · rename_i hk
      rw [read_cons, read_cons, ih (wf_tail hwf)]
      have hne : k ≠ s := by rintro rfl; simp at hk
      by_cases hx : x = s
      · subst hx; simp [hne]
      · simp [hx]
    · rename_i hk
      split
      · rename_i hks
        subst hks
        rw [read_list (head_lt hwf), read_cons]
        by_cases hx : x = k
        · simp [hx]
        · rw [if_neg hx, if_neg hx, if_neg (Ne.symm hx)]
      · rename_i hks
        have hlt := lt_of_not_lt_of_ne hk hks
        refine read_list ?_ x
        intro f hf
        rcases List.mem_cons.1 hf with rfl | hf
        · exact hlt
        · exact symbol_lt_trans hlt (head_lt hwf f hf)

/-- A write keeps the canonical form. -/
theorem wf_write {t : CodeTable} (hwf : CodeTable.wf t) (s : Symbol) {c : Code}
    (hc : c.length ≤ Config.maxLen) : CodeTable.wf (CodeTable.write t s c) := by
  induction t with
  | nil => exact wf_list hwf (by simp) hc
  | cons e t ih =>
    obtain ⟨k, d⟩ := e
    unfold CodeTable.write
    split
    · rename_i hk
      have hw := ih (wf_tail hwf)
      refine ⟨List.pairwise_cons.2 ⟨?_, hw.1⟩, ?_⟩
      · intro f hf
        rcases mem_write hf with h | h
        · rw [h]; exact hk
        · exact head_lt hwf f h
      · intro f hf
        rcases List.mem_cons.1 hf with rfl | hf
        · exact hwf.2 _ (by simp)
        · exact hw.2 f hf
    · rename_i hk
      split
      · rename_i hks
        exact wf_list (wf_tail hwf) (by subst hks; exact head_lt hwf) hc
      · rename_i hks
        have hlt := lt_of_not_lt_of_ne hk hks
        refine wf_list hwf ?_ hc
        intro f hf
        rcases List.mem_cons.1 hf with rfl | hf
        · exact hlt
        · exact symbol_lt_trans hlt (head_lt hwf f hf)

/-! ## The empty table and the table of a list of codes -/

theorem wf_empty : CodeTable.wf CodeTable.empty := by decide

@[simp] theorem read_empty (s : Symbol) : CodeTable.read CodeTable.empty s = [] := rfl

theorem wf_foldl_write {codes : List (Symbol × Code)} {t : CodeTable} (hwf : CodeTable.wf t)
    (hc : ∀ e ∈ codes, e.2.length ≤ Config.maxLen) :
    CodeTable.wf (codes.foldl (fun t e => CodeTable.write t e.1 e.2) t) := by
  induction codes generalizing t with
  | nil => exact hwf
  | cons e codes ih =>
    exact ih (wf_write hwf e.1 (hc e (by simp))) fun f hf => hc f (by simp [hf])

/-- The table of a list of codes is canonical. -/
theorem wf_ofPairs {codes : List (Symbol × Code)} (hc : ∀ e ∈ codes, e.2.length ≤ Config.maxLen) :
    CodeTable.wf (CodeTable.ofPairs codes) := wf_foldl_write wf_empty hc

theorem read_foldl_write_of_not_listed {codes : List (Symbol × Code)} {t : CodeTable}
    (hwf : CodeTable.wf t) (hc : ∀ e ∈ codes, e.2.length ≤ Config.maxLen) {s : Symbol}
    (hs : ∀ e ∈ codes, e.1 ≠ s) :
    CodeTable.read (codes.foldl (fun t e => CodeTable.write t e.1 e.2) t) s = CodeTable.read t s := by
  induction codes generalizing t with
  | nil => rfl
  | cons e codes ih =>
    have hne : s ≠ e.1 := fun h => hs e (by simp) h.symm
    rw [List.foldl_cons, ih (wf_write hwf e.1 (hc e (by simp))) (fun f hf => hc f (by simp [hf]))
      (fun f hf => hs f (by simp [hf])), read_write hwf, if_neg hne]

/-- The table of a list of codes with distinct symbols reads as the list says. -/
theorem read_ofPairs {codes : List (Symbol × Code)} (hc : ∀ e ∈ codes, e.2.length ≤ Config.maxLen)
    (hn : (codes.map Prod.fst).Nodup) (s : Symbol) :
    CodeTable.read (CodeTable.ofPairs codes) s = (assocFind s codes).getD [] := by
  suffices h : ∀ t, CodeTable.wf t → CodeTable.read t s = [] →
      CodeTable.read (codes.foldl (fun t e => CodeTable.write t e.1 e.2) t) s =
        (assocFind s codes).getD [] from h _ wf_empty rfl
  induction codes with
  | nil => exact fun t _ ht => ht
  | cons e codes ih =>
    intro t hwf ht
    obtain ⟨k, c⟩ := e
    have hwf' := wf_write hwf k (hc (k, c) (by simp))
    have hc' : ∀ f ∈ codes, f.2.length ≤ Config.maxLen := fun f hf => hc f (by simp [hf])
    rw [List.map_cons, List.nodup_cons] at hn
    rw [List.foldl_cons]
    by_cases hk : k = s
    · subst hk
      rw [read_foldl_write_of_not_listed hwf' hc', read_write hwf]
      · simp [assocFind]
      · exact fun f hf hfk => hn.1 (List.mem_map.2 ⟨f, hf, hfk⟩)
    · have hread : CodeTable.read (CodeTable.write t k c) s = [] := by
        rw [read_write hwf, if_neg (Ne.symm hk), ht]
      rw [ih hc' hn.2 _ hwf' hread]
      simp [assocFind, hk]

/-! ## Prefix-free tables -/

/-- A table is prefix-free when no listed code is a prefix of another symbol's. -/
theorem prefixFree_of_entries {t : CodeTable}
    (h : ∀ e ∈ t, ∀ f ∈ t, e.1 ≠ f.1 → ¬ e.2 <+: f.2) : PrefixFree t := fun _ _ hab ha hb =>
  h _ (mem_of_read_ne_nil ha) _ (mem_of_read_ne_nil hb) hab

/-- A prefix-free table holds no code twice. -/
theorem not_hasDuplicate_of_prefixFree {t : CodeTable} (h : PrefixFree t) : ¬ HasDuplicate t := by
  rintro ⟨a, b, hab, ha, heq⟩
  exact h a b hab ha (heq ▸ ha) (heq ▸ List.prefix_refl _)

end Sys2Proof.Machine
end

