-- ==== Sys2Proof/Laws/Codec.lean ====
section
/-! SUPPORT. What the loops of ENCODE and DECODE compute. -/

namespace Sys2Proof.Machine

/-! ## Lists of pairs -/

theorem mem_of_assocFind {κ ν : Type} [DecidableEq κ] {k : κ} {v : ν} {m : List (κ × ν)}
    (h : assocFind k m = some v) : (k, v) ∈ m := by
  induction m with
  | nil => cases h
  | cons e m ih =>
    obtain ⟨k', v'⟩ := e
    by_cases hk : k' = k
    · subst hk
      simp only [assocFind, if_true, Option.some.injEq] at h
      simp [h]
    · simp only [assocFind, if_neg hk] at h
      exact List.mem_cons_of_mem _ (ih h)

theorem assocFind_eq_none {κ ν : Type} [DecidableEq κ] {k : κ} {m : List (κ × ν)} :
    assocFind k m = none ↔ ∀ e ∈ m, e.1 ≠ k := by
  induction m with
  | nil => simp [assocFind]
  | cons e m ih =>
    obtain ⟨k', v'⟩ := e
    by_cases hk : k' = k
    · simp [assocFind, hk]
    · simp [assocFind, hk, ih]

/-! ## ENCODE (R140, R142) -/

/-- With every symbol present the loop appends the codes. -/
theorem encodeLoop_present {t : CodeTable} {input : List Symbol} (i : Nat) (out : List Bit)
    (h : ∀ x ∈ input, CodeTable.read t x ≠ []) :
    encodeLoop t i out input = .ok (out ++ concatCodes t input) := by
  induction input generalizing i out with
  | nil => simp [encodeLoop, concatCodes]
  | cons x input ih =>
    rw [encodeLoop, if_pos (present_iff.2 (h x (by simp))), ih _ _ fun y hy => h y (by simp [hy])]
    simp [concatCodes]

/-- The loop fails at the first absent symbol with its index. -/
theorem encodeLoop_missing {t : CodeTable} {before after : List Symbol} {x : Symbol} (i : Nat)
    (out : List Bit) (hb : ∀ y ∈ before, CodeTable.read t y ≠ []) (hx : CodeTable.read t x = []) :
    encodeLoop t i out (before ++ x :: after) = .fail .missingCode (i + before.length) := by
  induction before generalizing i out with
  | nil => simp [encodeLoop, CodeTable.present, hx]
  | cons y before ih =>
    rw [List.cons_append, encodeLoop, if_pos (present_iff.2 (hb y (by simp))),
      ih _ _ fun z hz => hb z (by simp [hz])]
    simp only [List.length_cons]
    congr 1
    omega

/-! ## DECODE phase 1 (R152) -/

/-- The walk ends in INV with one pair for each entry walked, and then no code was met twice. -/
theorem invLoop_ok {t : CodeTable} {inv m : InvMap} (h : invLoop inv t = .ok m) :
    m = inv ++ t.map Prod.swap := by
  induction t generalizing inv with
  | nil => simpa [invLoop, eq_comm] using h
  | cons e t ih =>
    obtain ⟨s, c⟩ := e
    unfold invLoop at h
    split at h
    · cases h
    · simpa using ih h

theorem inverseMap_ok {t : CodeTable} {inv : InvMap} (h : inverseMap t = .ok inv) :
    inv = t.map Prod.swap := by simpa using invLoop_ok h

/-- A failure of the walk is DuplicateCodeError at an entry whose code was met before it. -/
theorem invLoop_fail {t : CodeTable} {inv : InvMap} {e : Error} {info : Nat}
    (h : invLoop inv t = .fail e info) :
    e = .duplicateCode ∧ ∃ before s c after, t = before ++ (s, c) :: after ∧ info = s.toNat ∧
      ((∃ v, (c, v) ∈ inv) ∨ ∃ x, (x, c) ∈ before) := by
  induction t generalizing inv with
  | nil => cases h
  | cons f t ih =>
    obtain ⟨s, c⟩ := f
    unfold invLoop at h
    split at h
    · rename_i v hv
      cases h
      exact ⟨rfl, [], s, c, t, rfl, rfl, .inl ⟨v, mem_of_assocFind hv⟩⟩
    · obtain ⟨he, before, s', c', after, ht, hi, hd⟩ := ih h
      refine ⟨he, (s, c) :: before, s', c', after, by simp [ht], hi, ?_⟩
      rcases hd with ⟨v, hv⟩ | ⟨x, hx⟩
      · rcases List.mem_append.1 hv with hv | hv
        · exact .inl ⟨v, hv⟩
        · simp only [List.mem_singleton, Prod.mk.injEq] at hv
          exact .inr ⟨s, by simp [hv.1]⟩
      · exact .inr ⟨x, by simp [hx]⟩

/-! ## DECODE phase 2 (R153, R154) -/

/-- A match is a prefix of the bits left that is a code of INV, and no shorter length from `len` on
is one. -/
theorem matchLoop_some {inv : InvMap} {rest : List Bit} {k len : Nat} {s : Symbol} {n : Nat}
    (h : matchLoop inv rest k len = some (s, n)) :
    len ≤ n ∧ n ≤ rest.length ∧ assocFind (rest.take n) inv = some s ∧
      ∀ m, len ≤ m → m < n → assocFind (rest.take m) inv = none := by
  induction k generalizing len with
  | zero => cases h
  | succ k ih =>
    unfold matchLoop at h
    split at h
    · cases h
    · rename_i hlen
      split at h
      · rename_i s' hs
        cases h
        exact ⟨le_refl _, by omega, hs, fun m h1 h2 => by omega⟩
      · rename_i hn
        obtain ⟨h1, h2, h3, h4⟩ := ih h
        refine ⟨by omega, h2, h3, fun m hm hmn => ?_⟩
        by_cases hml : m = len
        · exact hml ▸ hn
        · exact h4 m (by omega) hmn

/-- No match: none of the lengths tried that fit is a code of INV. -/
theorem matchLoop_none {inv : InvMap} {rest : List Bit} {k len : Nat}
    (h : matchLoop inv rest k len = none) {m : Nat} (h₁ : len ≤ m) (h₂ : m < len + k)
    (h₃ : m ≤ rest.length) : assocFind (rest.take m) inv = none := by
  induction k generalizing len with
  | zero => omega
  | succ k ih =>
    unfold matchLoop at h
    split at h
    · omega
    · split at h
      · cases h
      · rename_i hn
        by_cases hml : m = len
        · exact hml ▸ hn
        · exact ih h (by omega) (by omega)

/-- A match takes at least one bit. -/
theorem shortestMatch_pos {inv : InvMap} {rest : List Bit} {s : Symbol} {n : Nat}
    (h : shortestMatch inv rest = some (s, n)) : 1 ≤ n ∧ n ≤ rest.length :=
  ⟨(matchLoop_some h).1, (matchLoop_some h).2.1⟩

end Sys2Proof.Machine
end

