-- ==== Sys2Proof/Laws/Decode.lean ====
section
/-! SUPPORT. A command word as its three fields, and the rows of the command table as conditions on the
fields. -/

namespace Sys2Proof

/-- A command word is its fields (R61). -/
theorem packCmd_fields (w : CmdWord) : packCmd (opField w) (flagsField w) (argField w) = w := by
  apply BitVec.eq_of_toNat_eq
  simp only [packCmd, opField, flagsField, argField, BitVec.toNat_append, BitVec.extractLsb'_toNat,
    Nat.shiftRight_eq_div_pow]
  have hw := w.isLt
  rw [← Nat.shiftLeft_add_eq_or_of_lt (by omega), ← Nat.shiftLeft_add_eq_or_of_lt (by omega)]
  simp only [Nat.shiftLeft_eq]
  omega

@[simp] theorem opField_packCmd (op flags : BitVec 8) (arg : BitVec 32) :
    opField (packCmd op flags arg) = op := by
  apply BitVec.eq_of_toNat_eq
  simp only [packCmd, opField, BitVec.toNat_append, BitVec.extractLsb'_toNat,
    Nat.shiftRight_eq_div_pow]
  have h1 := op.isLt; have h2 := flags.isLt; have h3 := arg.isLt
  rw [← Nat.shiftLeft_add_eq_or_of_lt (by omega), ← Nat.shiftLeft_add_eq_or_of_lt (by omega)]
  simp only [Nat.shiftLeft_eq]
  omega

@[simp] theorem flagsField_packCmd (op flags : BitVec 8) (arg : BitVec 32) :
    flagsField (packCmd op flags arg) = flags := by
  apply BitVec.eq_of_toNat_eq
  simp only [packCmd, flagsField, BitVec.toNat_append, BitVec.extractLsb'_toNat,
    Nat.shiftRight_eq_div_pow]
  have h1 := op.isLt; have h2 := flags.isLt; have h3 := arg.isLt
  rw [← Nat.shiftLeft_add_eq_or_of_lt (by omega), ← Nat.shiftLeft_add_eq_or_of_lt (by omega)]
  simp only [Nat.shiftLeft_eq]
  omega

@[simp] theorem argField_packCmd (op flags : BitVec 8) (arg : BitVec 32) :
    argField (packCmd op flags arg) = arg := by
  apply BitVec.eq_of_toNat_eq
  simp only [packCmd, argField, BitVec.toNat_append, BitVec.extractLsb'_toNat,
    Nat.shiftRight_eq_div_pow]
  have h1 := op.isLt; have h2 := flags.isLt; have h3 := arg.isLt
  rw [← Nat.shiftLeft_add_eq_or_of_lt (by omega), ← Nat.shiftLeft_add_eq_or_of_lt (by omega)]
  simp only [Nat.shiftLeft_eq]
  omega

/-- Masking a word masks its fields. -/
theorem packCmd_and (op flags op' flags' : BitVec 8) (arg arg' : BitVec 32) :
    packCmd op flags arg &&& packCmd op' flags' arg' =
      packCmd (op &&& op') (flags &&& flags') (arg &&& arg') :=
  BitVec.and_append.trans (congrArg (fun h : BitVec (8 + 8) => h ++ (arg &&& arg')) BitVec.and_append)

theorem and_ones8 (x : BitVec 8) : x &&& 0xFF#8 = x := BitVec.and_allOnes

theorem and_ones32 (x : BitVec 32) : x &&& 0xFFFFFFFF#32 = x := BitVec.and_allOnes

theorem packCmd_inj {op flags op' flags' : BitVec 8} {arg arg' : BitVec 32} :
    packCmd op flags arg = packCmd op' flags' arg' ↔ op = op' ∧ flags = flags' ∧ arg = arg' := by
  constructor
  · intro h
    exact ⟨by simpa using congrArg opField h, by simpa using congrArg flagsField h,
      by simpa using congrArg argField h⟩
  · rintro ⟨rfl, rfl, rfl⟩; rfl

/-- A row whose mask and pattern are given by fields, as a condition on the fields of the word. -/
theorem row_matches_iff {r : Row} {mo mf po pf : BitVec 8} {ma pa : BitVec 32}
    (hm : r.mask = packCmd mo mf ma) (hp : r.pattern = packCmd po pf pa) (w : CmdWord) :
    r.matches w = true ↔
      opField w &&& mo = po ∧ flagsField w &&& mf = pf ∧ argField w &&& ma = pa := by
  conv_lhs => rw [← packCmd_fields w]
  simp [Row.matches, hm, hp, packCmd_and, packCmd_inj]

theorem buildRow_matches (w : CmdWord) :
    buildRow.matches w = true ↔ opField w = 0x01#8 ∧ flagsField w &&& 0xFE#8 = 0#8 := by
  rw [row_matches_iff (mo := 0xFF#8) (mf := 0xFE#8) (ma := 0#32) (po := 0x01#8) (pf := 0#8)
    (pa := 0#32) (by decide) (by decide)]
  simp [and_ones8]

theorem encodeRow_matches (w : CmdWord) :
    encodeRow.matches w = true ↔ opField w = 0x02#8 ∧ flagsField w = 0#8 := by
  rw [row_matches_iff (mo := 0xFF#8) (mf := 0xFF#8) (ma := 0#32) (po := 0x02#8) (pf := 0#8)
    (pa := 0#32) (by decide) (by decide)]
  simp [and_ones8]

theorem decodeRow_matches (w : CmdWord) :
    decodeRow.matches w = true ↔ opField w = 0x03#8 ∧ flagsField w = 0#8 := by
  rw [row_matches_iff (mo := 0xFF#8) (mf := 0xFF#8) (ma := 0#32) (po := 0x03#8) (pf := 0#8)
    (pa := 0#32) (by decide) (by decide)]
  simp [and_ones8]

theorem loadtRow_matches (w : CmdWord) :
    loadtRow.matches w = true ↔
      opField w = 0x04#8 ∧ flagsField w = 0#8 ∧ argField w &&& 0xFFFF0000#32 = 0#32 := by
  rw [row_matches_iff (mo := 0xFF#8) (mf := 0xFF#8) (ma := 0xFFFF0000#32) (po := 0x04#8)
    (pf := 0#8) (pa := 0#32) (by decide) (by decide)]
  simp [and_ones8]

theorem readtRow_matches (w : CmdWord) :
    readtRow.matches w = true ↔
      opField w = 0x05#8 ∧ flagsField w = 0#8 ∧ argField w &&& 0xFFFF00FF#32 = 0#32 := by
  rw [row_matches_iff (mo := 0xFF#8) (mf := 0xFF#8) (ma := 0xFFFF00FF#32) (po := 0x05#8)
    (pf := 0#8) (pa := 0#32) (by decide) (by decide)]
  simp [and_ones8]

theorem clrtRow_matches (w : CmdWord) :
    clrtRow.matches w = true ↔ opField w = 0x06#8 ∧ flagsField w = 0#8 ∧ argField w = 0#32 := by
  rw [row_matches_iff (mo := 0xFF#8) (mf := 0xFF#8) (ma := 0xFFFFFFFF#32) (po := 0x06#8)
    (pf := 0#8) (pa := 0#32) (by decide) (by decide)]
  simp [and_ones8, and_ones32]

end Sys2Proof
end

