-- ==== Sys2Proof/Laws/State.lean ====
section
/-! SUPPORT. One lemma per field per update of the state, so that no proof unfolds a record update. -/

namespace Sys2Proof.Machine

/-! ## respond -/

@[simp] theorem respond_seq (n : Nat) (s : State) : (respond n s).seq = .idle := rfl
@[simp] theorem respond_ct (n : Nat) (s : State) : (respond n s).ct = s.ct := rfl
@[simp] theorem respond_cmd (n : Nat) (s : State) : (respond n s).cmd = s.cmd := rfl
@[simp] theorem respond_si (n : Nat) (s : State) : (respond n s).si = s.si := rfl
@[simp] theorem respond_bi (n : Nat) (s : State) : (respond n s).bi = s.bi := rfl
@[simp] theorem respond_rsp (n : Nat) (s : State) : (respond n s).rsp = s.rsp ++ [okRsp n] := rfl
@[simp] theorem respond_so (n : Nat) (s : State) : (respond n s).so = s.so := rfl
@[simp] theorem respond_bo (n : Nat) (s : State) : (respond n s).bo = s.bo := rfl

/-! ## raise -/

@[simp] theorem raise_seq (e : Error) (info : Nat) (s : State) : (raise e info s).seq = .idle := rfl
@[simp] theorem raise_ct (e : Error) (info : Nat) (s : State) : (raise e info s).ct = s.ct := rfl
@[simp] theorem raise_cmd (e : Error) (info : Nat) (s : State) : (raise e info s).cmd = s.cmd := rfl
@[simp] theorem raise_si (e : Error) (info : Nat) (s : State) : (raise e info s).si = s.si := rfl
@[simp] theorem raise_bi (e : Error) (info : Nat) (s : State) : (raise e info s).bi = s.bi := rfl
@[simp] theorem raise_rsp (e : Error) (info : Nat) (s : State) : (raise e info s).rsp = s.rsp ++ [errRsp e info] := rfl
@[simp] theorem raise_so (e : Error) (info : Nat) (s : State) : (raise e info s).so = s.so := rfl
@[simp] theorem raise_bo (e : Error) (info : Nat) (s : State) : (raise e info s).bo = s.bo := rfl

/-! ## emitSO -/

@[simp] theorem emitSO_seq (q : List Symbol) (s : State) : (emitSO q s).seq = s.seq := rfl
@[simp] theorem emitSO_ct (q : List Symbol) (s : State) : (emitSO q s).ct = s.ct := rfl
@[simp] theorem emitSO_cmd (q : List Symbol) (s : State) : (emitSO q s).cmd = s.cmd := rfl
@[simp] theorem emitSO_si (q : List Symbol) (s : State) : (emitSO q s).si = s.si := rfl
@[simp] theorem emitSO_bi (q : List Symbol) (s : State) : (emitSO q s).bi = s.bi := rfl
@[simp] theorem emitSO_rsp (q : List Symbol) (s : State) : (emitSO q s).rsp = s.rsp := rfl
@[simp] theorem emitSO_so (q : List Symbol) (s : State) : (emitSO q s).so = s.so ++ q := rfl
@[simp] theorem emitSO_bo (q : List Symbol) (s : State) : (emitSO q s).bo = s.bo := rfl

/-! ## emitBO -/

@[simp] theorem emitBO_seq (q : List Bit) (s : State) : (emitBO q s).seq = s.seq := rfl
@[simp] theorem emitBO_ct (q : List Bit) (s : State) : (emitBO q s).ct = s.ct := rfl
@[simp] theorem emitBO_cmd (q : List Bit) (s : State) : (emitBO q s).cmd = s.cmd := rfl
@[simp] theorem emitBO_si (q : List Bit) (s : State) : (emitBO q s).si = s.si := rfl
@[simp] theorem emitBO_bi (q : List Bit) (s : State) : (emitBO q s).bi = s.bi := rfl
@[simp] theorem emitBO_rsp (q : List Bit) (s : State) : (emitBO q s).rsp = s.rsp := rfl
@[simp] theorem emitBO_so (q : List Bit) (s : State) : (emitBO q s).so = s.so := rfl
@[simp] theorem emitBO_bo (q : List Bit) (s : State) : (emitBO q s).bo = s.bo ++ q := rfl

/-! ## await -/

@[simp] theorem await_seq (i : Instr) (s : State) : (await i s).seq = .waiting i := rfl
@[simp] theorem await_ct (i : Instr) (s : State) : (await i s).ct = s.ct := rfl
@[simp] theorem await_cmd (i : Instr) (s : State) : (await i s).cmd = s.cmd := rfl
@[simp] theorem await_si (i : Instr) (s : State) : (await i s).si = s.si := rfl
@[simp] theorem await_bi (i : Instr) (s : State) : (await i s).bi = s.bi := rfl
@[simp] theorem await_rsp (i : Instr) (s : State) : (await i s).rsp = s.rsp := rfl
@[simp] theorem await_so (i : Instr) (s : State) : (await i s).so = s.so := rfl
@[simp] theorem await_bo (i : Instr) (s : State) : (await i s).bo = s.bo := rfl

/-! ## withFetchWord -/

@[simp] theorem withFetchWord_seq (nbits w : Nat) (s : State) : (s.withFetchWord nbits w).seq = .idle := rfl
@[simp] theorem withFetchWord_ct (nbits w : Nat) (s : State) : (s.withFetchWord nbits w).ct = s.ct := rfl
@[simp] theorem withFetchWord_cmd (nbits w : Nat) (s : State) : (s.withFetchWord nbits w).cmd = tableWord nbits w :: s.cmd := rfl
@[simp] theorem withFetchWord_si (nbits w : Nat) (s : State) : (s.withFetchWord nbits w).si = s.si := rfl
@[simp] theorem withFetchWord_bi (nbits w : Nat) (s : State) : (s.withFetchWord nbits w).bi = s.bi := rfl
@[simp] theorem withFetchWord_rsp (nbits w : Nat) (s : State) : (s.withFetchWord nbits w).rsp = s.rsp := rfl
@[simp] theorem withFetchWord_so (nbits w : Nat) (s : State) : (s.withFetchWord nbits w).so = s.so := rfl
@[simp] theorem withFetchWord_bo (nbits w : Nat) (s : State) : (s.withFetchWord nbits w).bo = s.bo := rfl

/-! ## applyReset -/

@[simp] theorem applyReset_seq (s : State) : (applyReset s).seq = .idle := rfl
@[simp] theorem applyReset_ct (s : State) : (applyReset s).ct = [] := rfl
@[simp] theorem applyReset_cmd (s : State) : (applyReset s).cmd = [] := rfl
@[simp] theorem applyReset_si (s : State) : (applyReset s).si = [] := rfl
@[simp] theorem applyReset_bi (s : State) : (applyReset s).bi = [] := rfl
@[simp] theorem applyReset_rsp (s : State) : (applyReset s).rsp = [] := rfl
@[simp] theorem applyReset_so (s : State) : (applyReset s).so = [] := rfl
@[simp] theorem applyReset_bo (s : State) : (applyReset s).bo = [] := rfl

end Sys2Proof.Machine
end

