-- ==== Sys2Proof/Laws/Ops.lean ====
section
/-! SUPPORT. Everything the shared operations can do: taking a payload, waiting, fetching, and one step.
Later proofs cite these and do not unfold the operations. -/

namespace Sys2Proof.Machine

/-! ## Taking a payload (R43) -/

theorem takeSI_ready {n : Nat} {s : State} (h : n ≤ s.si.length) :
    takeSI n s = some (s.si.take n, { s with si := s.si.drop n }) := if_pos h

theorem takeSI_short {n : Nat} {s : State} (h : ¬ n ≤ s.si.length) : takeSI n s = none := if_neg h

theorem takeBI_ready {n : Nat} {s : State} (h : n ≤ s.bi.length) :
    takeBI n s = some (s.bi.take n, { s with bi := s.bi.drop n }) := if_pos h

theorem takeBI_short {n : Nat} {s : State} (h : ¬ n ≤ s.bi.length) : takeBI n s = none := if_neg h

theorem withSymbols_ready {i : Instr} {n : Nat} {act : List Symbol → State → State} {s : State}
    (h : n ≤ s.si.length) :
    withSymbols i n act s = .next (act (s.si.take n) { s with si := s.si.drop n }) := by
  simp [withSymbols, takeSI_ready h]

theorem withSymbols_short {i : Instr} {n : Nat} {act : List Symbol → State → State} {s : State}
    (h : ¬ n ≤ s.si.length) : withSymbols i n act s = .next (await i s) := by
  simp [withSymbols, takeSI_short h]

theorem withBits_ready {i : Instr} {n : Nat} {act : List Bit → State → State} {s : State}
    (h : n ≤ s.bi.length) :
    withBits i n act s = .next (act (s.bi.take n) { s with bi := s.bi.drop n }) := by
  simp [withBits, takeBI_ready h]

theorem withBits_short {i : Instr} {n : Nat} {act : List Bit → State → State} {s : State}
    (h : ¬ n ≤ s.bi.length) : withBits i n act s = .next (await i s) := by
  simp [withBits, takeBI_short h]

/-! ## Each command with its payload there -/

theorem exec_build_ready {ne : Bool} {count : Nat} {s : State} (h : count ≤ s.si.length) :
    exec (.build ne count) s =
      .next (buildAct ne count (s.si.take count) { s with si := s.si.drop count }) :=
  withSymbols_ready h

theorem exec_encode_ready {count : Nat} {s : State} (h : count ≤ s.si.length) :
    exec (.encode count) s = .next (encodeAct (s.si.take count) { s with si := s.si.drop count }) :=
  withSymbols_ready h

theorem exec_decode_ready {count : Nat} {s : State} (h : count ≤ s.bi.length) :
    exec (.decode count) s = .next (decodeAct (s.bi.take count) { s with bi := s.bi.drop count }) :=
  withBits_ready h

theorem exec_loadt_ready {sym : Symbol} {clen : Nat} {s : State} (h : clen ≤ s.bi.length) :
    exec (.loadt sym clen) s =
      .next (loadtAct sym (s.bi.take clen) { s with bi := s.bi.drop clen }) := withBits_ready h

theorem exec_readt {sym : Symbol} {s : State} :
    exec (.readt sym) s =
      .next (respond (CodeTable.read s.ct sym).length (emitBO (CodeTable.read s.ct sym) s)) := rfl

theorem exec_clrt {s : State} : exec .clrt s = .next (respond 0 { s with ct := CodeTable.empty }) := rfl

/-- A command whose payload has not all arrived waits. -/
theorem exec_short {i : Instr} {s : State} (h : ¬ payloadReady i s) : exec i s = .next (await i s) := by
  cases i with
  | build ne count => exact withSymbols_short (by simpa [siNeed, biNeed] using h)
  | encode count => exact withSymbols_short (by simpa [siNeed, biNeed] using h)
  | decode count => exact withBits_short (by simpa [siNeed, biNeed] using h)
  | loadt sym clen => exact withBits_short (by simpa [siNeed, biNeed] using h)
  | readt sym => exact absurd ⟨Nat.zero_le _, Nat.zero_le _⟩ h
  | clrt => exact absurd ⟨Nat.zero_le _, Nat.zero_le _⟩ h

/-! ## How a command ends (R188, R211) -/

/-- ENCODE's computation ends in an output or an error. -/
theorem encodeAct_cases (input : List Symbol) (s : State) :
    (∃ out, encodeMessage s.ct input = .ok out ∧ encodeAct input s = respond out.length (emitBO out s)) ∨
      ∃ e info, encodeMessage s.ct input = .fail e info ∧ encodeAct input s = raise e info s := by
  unfold encodeAct
  split
  · rename_i out h; exact .inl ⟨out, h, rfl⟩
  · rename_i e info h; exact .inr ⟨e, info, h, rfl⟩

/-- DECODE's computation ends in an output or an error. -/
theorem decodeAct_cases (bits : List Bit) (s : State) :
    (∃ out, decodeMessage s.ct bits = .ok out ∧ decodeAct bits s = respond out.length (emitSO out s)) ∨
      ∃ e info, decodeMessage s.ct bits = .fail e info ∧ decodeAct bits s = raise e info s := by
  unfold decodeAct
  split
  · rename_i out h; exact .inl ⟨out, h, rfl⟩
  · rename_i e info h; exact .inr ⟨e, info, h, rfl⟩

/-- BUILD ends with the empty table, with EmptyInputError, or with the built table. -/
theorem buildAct_cases (ne : Bool) (count : Nat) (input : List Symbol) (s : State) :
    (count = 0 ∧ ne = false ∧ buildAct ne count input s = respond 0 { s with ct := CodeTable.empty }) ∨
      (count = 0 ∧ ne = true ∧ buildAct ne count input s = raise .emptyInput 0 s) ∨
      (count ≠ 0 ∧ buildAct ne count input s = respond 0 { s with ct := buildTable input }) := by
  unfold buildAct
  by_cases hc : count = 0
  · cases ne <;> simp [hc]
  · simp [hc]

/-- Everything a command can do once its payload is there: it takes exactly that payload, may change CT,
puts one response on RSP and its output behind what is on SO and BO, and leaves the sequencer idle. -/
theorem exec_ready_shape {i : Instr} {s : State} (h : payloadReady i s) :
    ∃ ct r outS outB, exec i s =
      .next { s with
        seq := .idle, ct := ct, si := s.si.drop (siNeed i), bi := s.bi.drop (biNeed i)
        rsp := s.rsp ++ [r], so := s.so ++ outS, bo := s.bo ++ outB } := by
  cases i with
  | build ne count =>
    rw [exec_build_ready (show count ≤ s.si.length from h.1)]
    rcases buildAct_cases ne count (s.si.take count) { s with si := s.si.drop count } with
      ⟨-, -, ha⟩ | ⟨-, -, ha⟩ | ⟨-, ha⟩
    · exact ⟨_, okRsp 0, [], [], by rw [ha]; simp [respond, siNeed, biNeed]; rfl⟩
    · exact ⟨_, errRsp .emptyInput 0, [], [], by rw [ha]; simp [raise, siNeed, biNeed]; rfl⟩
    · exact ⟨_, okRsp 0, [], [], by rw [ha]; simp [respond, siNeed, biNeed]; rfl⟩
  | encode count =>
    rw [exec_encode_ready (show count ≤ s.si.length from h.1)]
    rcases encodeAct_cases (s.si.take count) { s with si := s.si.drop count } with
      ⟨out, -, ha⟩ | ⟨e, info, -, ha⟩
    · exact ⟨_, okRsp out.length, [], out, by rw [ha]; simp [respond, emitBO, siNeed, biNeed]; rfl⟩
    · exact ⟨_, errRsp e info, [], [], by rw [ha]; simp [raise, siNeed, biNeed]; rfl⟩
  | decode count =>
    rw [exec_decode_ready (show count ≤ s.bi.length from h.2)]
    rcases decodeAct_cases (s.bi.take count) { s with bi := s.bi.drop count } with
      ⟨out, -, ha⟩ | ⟨e, info, -, ha⟩
    · exact ⟨_, okRsp out.length, out, [], by rw [ha]; simp [respond, emitSO, siNeed, biNeed]; rfl⟩
    · exact ⟨_, errRsp e info, [], [], by rw [ha]; simp [raise, siNeed, biNeed]; rfl⟩
  | loadt sym clen =>
    rw [exec_loadt_ready (show clen ≤ s.bi.length from h.2)]
    exact ⟨_, okRsp 0, [], [], by simp [loadtAct, respond, siNeed, biNeed]; rfl⟩
  | readt sym =>
    exact ⟨_, okRsp (CodeTable.read s.ct sym).length, [], CodeTable.read s.ct sym, by
      rw [exec_readt]; simp [respond, emitBO, siNeed, biNeed]; rfl⟩
  | clrt => exact ⟨_, okRsp 0, [], [], by rw [exec_clrt]; simp [respond, siNeed, biNeed]; rfl⟩

/-! ## Fetching and stepping (R20, R50) -/

theorem fetch_waiting {s : State} {i : Instr} (h : s.seq = .waiting i) :
    fetch s = .command i { s with seq := .idle } := by simp [fetch, h]

theorem fetch_empty {s : State} (h : s.seq = .idle) (hc : s.cmd = []) : fetch s = .nothing := by
  simp [fetch, h, hc]

theorem fetch_legal {s : State} {w : CmdWord} {rest : List CmdWord} {i : Instr} (h : s.seq = .idle)
    (hc : s.cmd = w :: rest) (hd : decodeWord w = some i) :
    fetch s = .command i { s with cmd := rest } := by simp [fetch, h, hc, hd]

theorem fetch_illegal {s : State} {w : CmdWord} {rest : List CmdWord} (h : s.seq = .idle)
    (hc : s.cmd = w :: rest) (hd : decodeWord w = none) :
    fetch s = .illegal { s with cmd := rest } := by simp [fetch, h, hc, hd]

/-- Everything a fetch can find. -/
theorem fetch_cases (s : State) :
    (s.seq = .idle ∧ s.cmd = [] ∧ fetch s = .nothing) ∨
      (∃ i, s.seq = .waiting i ∧ fetch s = .command i { s with seq := .idle }) ∨
      (∃ w rest i, s.seq = .idle ∧ s.cmd = w :: rest ∧ decodeWord w = some i ∧
        fetch s = .command i { s with cmd := rest }) ∨
      ∃ w rest, s.seq = .idle ∧ s.cmd = w :: rest ∧ decodeWord w = none ∧
        fetch s = .illegal { s with cmd := rest } := by
  cases hs : s.seq with
  | waiting i => exact .inr (.inl ⟨i, rfl, by rw [fetch_waiting hs]⟩)
  | idle =>
    cases hc : s.cmd with
    | nil => exact .inl ⟨rfl, rfl, fetch_empty hs hc⟩
    | cons w rest =>
      cases hd : decodeWord w with
      | some i => exact .inr (.inr (.inl ⟨w, rest, i, rfl, rfl, hd, by simp [fetch_legal hs hc hd, hs]⟩))
      | none => exact .inr (.inr (.inr ⟨w, rest, rfl, rfl, hd, by simp [fetch_illegal hs hc hd, hs]⟩))

/-- Everything a step can do: wait, perform a command, or answer an illegal word. -/
theorem step_cases {s t : State} (h : step s = .next t) :
    (fetch s = .nothing ∧ t = s) ∨
      (∃ i s', fetch s = .command i s' ∧ exec i s' = .next t) ∨
      ∃ s', fetch s = .illegal s' ∧ t = illegalWord s' := by
  unfold step at h
  split at h
  · rename_i hf; injection h with h; exact .inl ⟨hf, h.symm⟩
  · rename_i i s' hf; exact .inr (.inl ⟨i, s', hf, h⟩)
  · rename_i s' hf; injection h with h; exact .inr (.inr ⟨s', hf, h.symm⟩)

/-- One more step of a run. -/
theorem run_succ (k : Nat) {s t : State} (h : step s = .next t) : core.run (k + 1) s = core.run k t := by
  simp only [Host.Core.run]
  rw [show core.step s = .next t from h]

/-- A legal word at the head of CMD with its payload there makes HFM ready. -/
theorem commandReady_of_decode {s : State} {w : CmdWord} {rest : List CmdWord} {i : Instr}
    (h : s.seq = .idle) (hc : s.cmd = w :: rest) (hd : decodeWord w = some i)
    (hp : payloadReady i s) : CommandReady s := by
  unfold CommandReady
  rw [h, hc]
  intro j hj
  rw [hd] at hj
  injection hj with hj
  exact hj ▸ hp

end Sys2Proof.Machine
end

