-- ==== Sys2Proof/Laws/PerInstr.lean ====
section
/-! SUPPORT. The family RowMatch: the word the encoder writes for a command lies in that command's row of
R64, one lemma per command. -/

namespace Sys2Proof.Laws.RowMatch

/-- The row of R64 of a command. -/
def rowOf : Instr → Row
  | .build _ _ => buildRow
  | .encode _ => encodeRow
  | .decode _ => decodeRow
  | .loadt _ _ => loadtRow
  | .readt _ => readtRow
  | .clrt => clrtRow

/-- The word of a command matches the command's row. -/
def Statement (i : Instr) : Prop := (rowOf i).matches (encodeWord i) = true

/-- Format T: the reserved half of ARG is 0. -/
theorem packTableArg_high (sym : Symbol) (low : BitVec 8) :
    packTableArg sym low &&& 0xFFFF0000#32 = 0#32 :=
  (BitVec.and_append (x₁ := 0#16 ++ sym) (x₂ := 0xFFFF00#24) (y₁ := low) (y₂ := 0#8)).trans <| by
    rw [show (0#16 ++ sym) &&& 0xFFFF00#24 = 0#24 from
      (BitVec.and_append (x₁ := 0#16) (x₂ := 0xFFFF#16) (y₁ := sym) (y₂ := 0#8)).trans (by simp)]
    simp

theorem packTableArg_reserved (sym : Symbol) : packTableArg sym 0#8 &&& 0xFFFF00FF#32 = 0#32 :=
  (BitVec.and_append (x₁ := 0#16 ++ sym) (x₂ := 0xFFFF00#24) (y₁ := 0#8) (y₂ := 0xFF#8)).trans <| by
    rw [show (0#16 ++ sym) &&& 0xFFFF00#24 = 0#24 from
      (BitVec.and_append (x₁ := 0#16) (x₂ := 0xFFFF#16) (y₁ := sym) (y₂ := 0#8)).trans (by simp)]
    simp

theorem build (ne : Bool) (count : Nat) : Statement (.build ne count) := by
  refine (buildRow_matches _).2 ?_
  cases ne <;> simp [encodeWord]

theorem encode (count : Nat) : Statement (.encode count) := by
  refine (encodeRow_matches _).2 ?_
  simp [encodeWord]

theorem decode (count : Nat) : Statement (.decode count) := by
  refine (decodeRow_matches _).2 ?_
  simp [encodeWord]

theorem loadt (sym : Symbol) (clen : Nat) : Statement (.loadt sym clen) := by
  refine (loadtRow_matches _).2 ?_
  simp [encodeWord, packTableArg_high]

theorem readt (sym : Symbol) : Statement (.readt sym) := by
  refine (readtRow_matches _).2 ?_
  simp [encodeWord, packTableArg_reserved]

theorem clrt : Statement .clrt := by
  refine (clrtRow_matches _).2 ?_
  simp [encodeWord]

end Sys2Proof.Laws.RowMatch
end

