-- ==== Sys2Proof/Tests/Slice0.lean ====
section
/-! SUPPORT. The model's own tests. Every expected result is taken from the spec's worked examples and
vectors, named in the docstring; ASCII values are those of `93_implementation_defined.md` G2 (log entry
15). The witnesses at the end show, for each statement with hypotheses, a concrete case that meets
them. -/

namespace Sys2Proof.Machine.Tests

/-! ## WellFormed: an ill-formed term for each check -/

theorem test_wellFormed_build_count : ¬ (Instr.build false 4294967296).WellFormed := by decide
theorem test_wellFormed_encode_count : ¬ (Instr.encode 4294967296).WellFormed := by decide
theorem test_wellFormed_decode_count : ¬ (Instr.decode 4294967296).WellFormed := by decide
theorem test_wellFormed_loadt_clen : ¬ (Instr.loadt 0x61#8 256).WellFormed := by decide

/-! ## Decoding: words written out from R61 to R64 (R72, X1 to X3) -/

/-- R61: OP = 0x01, FLAGS = 0b0000000 and NE, ARG = COUNT, bit by bit. -/
theorem test_decode_build : decodeWord
    0b00000001_00000001_00000000000000000000000000000001#48 = some (.build true 1) := by decide

theorem test_decode_encode : decodeWord
    0b00000010_00000000_00000000000000000000000000000100#48 = some (.encode 4) := by decide

theorem test_decode_decode : decodeWord
    0b00000011_00000000_00000000000000000000000011111111#48 = some (.decode 255) := by decide

/-- R62, format T: reserved, SYM = 0x61, CLEN = 1. -/
theorem test_decode_loadt : decodeWord
    0b00000100_00000000_0000000000000000_01100001_00000001#48 = some (.loadt 0x61#8 1) := by decide

theorem test_decode_readt : decodeWord
    0b00000101_00000000_0000000000000000_01100010_00000000#48 = some (.readt 0x62#8) := by decide

theorem test_decode_clrt : decodeWord
    0b00000110_00000000_0000000000000000_00000000_00000000#48 = some .clrt := by decide

/-- X1: illegal words. -/
theorem test_decode_illegal :
    [0x000000000000#48, 0x070000000000#48, 0xFF0000000000#48, 0x010200000001#48, 0x020100000004#48,
      0x040001006101#48, 0x050000006101#48, 0x060000000001#48, 0x060100000000#48].map decodeWord =
      List.replicate 9 none := by decide

/-- X3 and R60: the table's numbering, and no command of another length. -/
theorem test_decodeTableWord :
    decodeTableWord 48 0x0100FFFFFFFF = some (.build false 4294967295) ∧
      decodeTableWord 48 0x04000000FF00 = some (.loadt 0xFF#8 0) ∧
      decodeTableWord 56 0x060000000000 = none := by decide

/-- No word matches two rows of R64: each row's pattern lies in no other row. -/
theorem test_rows_disjoint :
    rows.Pairwise fun r q => r.pattern &&& (r.mask &&& q.mask) ≠ q.pattern &&& (r.mask &&& q.mask) := by
  decide

/-! ## Small states -/

/-- The state after reset with a table. -/
def withTable (t : CodeTable) : State := { State.reset with ct := t }

/-- The table `a: "0", b: "10", c: "11"` of R140 and R150. -/
def tableABC : CodeTable := [(0x61#8, [false]), (0x62#8, [true, false]), (0x63#8, [true, true])]

/-- The table `a: "0", b: "0"` of E7 and DC9. -/
def tableDup : CodeTable := [(0x61#8, [false]), (0x62#8, [false])]

/-- The response of a next state, its table and its outputs. -/
def seen (o : Host.Outcome State Fault Refusal) :
    Option (List RspWord × CodeTable × List Symbol × List Bit) :=
  match o with
  | .next t => some (t.rsp, t.ct, t.so, t.bo)
  | .fault _ => none
  | .refused _ => none

/-! ## BUILD -/

/-- B3: `BUILD "abc"`, ties and insertion at the front. -/
theorem test_build_abc : seen (exec (.build false 3) { State.reset with si := [0x61, 0x62, 0x63] }) =
    some ([0#80], [(0x61#8, [true]), (0x62#8, [false, false]), (0x63#8, [false, true])], [], []) := by
  decide +kernel

/-- B9: the table of "beep bop beer!". -/
theorem test_build_beep : buildTable [0x62, 0x65, 0x65, 0x70, 0x20, 0x62, 0x6F, 0x70, 0x20, 0x62, 0x65,
      0x65, 0x72, 0x21] =
    [(0x20#8, [false, true, true]), (0x21#8, [true, true, false, true]), (0x62#8, [true, false]),
      (0x65#8, [false, false]), (0x6F#8, [true, true, true]), (0x70#8, [false, true, false]),
      (0x72#8, [true, true, false, false])] := by decide +kernel

/-- R108: the worked examples of insert. -/
theorem test_insertBefore :
    insertBefore id 2 [4, 3, 2, 2, 1] = [4, 3, 2, 2, 2, 1] ∧ insertBefore id 3 [3] = [3, 3] ∧
      insertBefore id 2 [1, 1] = [2, 1, 1] := by decide

/-- P2 line 6: `BUILD.NE ""` keeps the table. -/
theorem test_build_ne_empty : seen (exec (.build true 0) (withTable tableABC)) =
    some ([0x01000000000000000000#80], tableABC, [], []) := by decide

/-! ## ENCODE -/

/-- R140: `ENCODE "aaabbc"`. -/
theorem test_encode : seen (exec (.encode 6)
      { withTable tableABC with si := [0x61, 0x61, 0x61, 0x62, 0x62, 0x63] }) =
    some ([0x00000000000900000000#80], tableABC, [],
      [false, false, false, true, false, true, false, true, true]) := by decide

/-- P2 line 5: MissingCodeError at index 1. -/
theorem test_encode_missing : seen (exec (.encode 2)
      { withTable [(0x61#8, [false])] with si := [0x61, 0x62] }) =
    some ([0x02000000000000000001#80], [(0x61#8, [false])], [], []) := by decide

/-! ## DECODE -/

/-- R150: `DECODE "000101011"`. -/
theorem test_decode : seen (exec (.decode 9) { withTable tableABC with
      bi := [false, false, false, true, false, true, false, true, true] }) =
    some ([0x00000000000600000000#80], tableABC, [0x61, 0x61, 0x61, 0x62, 0x62, 0x63], []) := by decide

/-- DC9 and R154: DuplicateCodeError with INFO 0x62; TruncatedSequenceError with INFO 1. -/
theorem test_decode_errors :
    seen (exec (.decode 0) (withTable tableDup)) =
        some ([0x03000000000000000062#80], tableDup, [], []) ∧
      seen (exec (.decode 2) { withTable tableABC with bi := [false, true] }) =
        some ([0x04000000000000000001#80], tableABC, [], []) := ⟨by decide, by decide⟩

/-! ## LOADT, READT, CLRT -/

/-- T1: `LOADT 'a', "010"`, and the register it makes. -/
theorem test_loadt : seen (exec (.loadt 0x61#8 3) { State.reset with bi := [false, true, false] }) =
      some ([0#80], [(0x61#8, [false, true, false])], [], []) ∧
    (entryLen (entryWord [false, true, false])).toNat = 3 ∧
    entryCode (entryWord [false, true, false]) = 0b010#255 := by decide

/-- P3 line 12: `LOADT 'c', ""` removes the entry. -/
theorem test_loadt_remove : seen (exec (.loadt 0x63#8 0) (withTable tableABC)) =
    some ([0#80], [(0x61#8, [false]), (0x62#8, [true, false])], [], []) := by decide

/-- R172: READT of a present and of an absent entry. -/
theorem test_readt : seen (exec (.readt 0x62#8) (withTable tableABC)) =
      some ([0x00000000000200000000#80], tableABC, [], [true, false]) ∧
    seen (exec (.readt 0x7A#8) (withTable tableABC)) = some ([0#80], tableABC, [], []) :=
  ⟨by decide, by decide⟩

/-- T5. -/
theorem test_clrt : seen (exec .clrt (withTable tableABC)) = some ([0#80], [], [], []) := by decide

/-! ## Steps -/

/-- X1: an illegal word takes no payload. -/
theorem test_step_illegal : step { State.reset with cmd := [0x070000000000#48], si := [0x61] } =
    .next { State.reset with si := [0x61], rsp := [0x05000000000000000000#80] } := by rfl

/-- R207: a command with too little payload waits; the next step goes on once it is there. -/
theorem test_step_waits :
    step { State.reset with cmd := [0x040000006101#48] } =
        .next { State.reset with seq := .waiting (.loadt 0x61#8 1) } ∧
      step { State.reset with seq := .waiting (.loadt 0x61#8 1), bi := [true] } =
        .next { State.reset with ct := [(0x61#8, [true])], rsp := [0#80] } := ⟨rfl, rfl⟩

/-- R71: LDTBL of a = "0" twice and b. -/
theorem test_ldtbl : (ldtbl [(0x62#8, [true]), (0x61#8, [false]), (0x61#8, [])]).map
      (fun tr => encodeWord tr.instr) =
    [0x060000000000#48, 0x040000006101#48, 0x040000006100#48, 0x040000006201#48] := by decide

/-! ## Witnesses: for each statement with hypotheses, a case that meets them -/

theorem tableABC_wf : CodeTable.wf tableABC := by decide

theorem tableABC_prefixFree : PrefixFree tableABC := prefixFree_of_entries (by decide)

theorem tableABC_noDuplicate : ¬ HasDuplicate tableABC :=
  not_hasDuplicate_of_prefixFree tableABC_prefixFree

/-- A state with a table, commands, payload and items on every output channel. -/
def busy : State where
  seq := .idle
  ct := tableABC
  cmd := [0x020000000002#48, 0x030000000001#48]
  si := [0x61, 0x62, 0x63]
  bi := [false, true, true]
  rsp := [0x02000000000000000001#80]
  so := [0x61]
  bo := [true]

theorem busy_inv : Inv busy := by
  refine ⟨by decide, by decide, ?_⟩
  intro r hr
  obtain rfl : r = 0x02000000000000000001#80 := by simpa [busy] using hr
  decide

theorem witness_DecodeOfEncodeIsIdentity :
    (Instr.build true 4294967295).WellFormed ∧ (Instr.encode 4294967295).WellFormed ∧
      (Instr.decode 0).WellFormed ∧ (Instr.loadt 0xFF#8 255).WellFormed ∧
      (Instr.readt 0xFF#8).WellFormed ∧ Instr.clrt.WellFormed := by decide

theorem witness_EncodeOfDecodeIsIdentity :
    decodeWord 0x0101FFFFFFFF#48 = some (.build true 4294967295) ∧
      decodeWord 0x04000000FFFF#48 = some (.loadt 0xFF#8 255) := by decide

/-- A word for each clause of the lists, at the edge of its range. -/
theorem witness_CommandsAreExactlyTheirRows :
    decodeWord 0x0101FFFFFFFF#48 = some (.build true 4294967295) ∧
      decodeWord 0x0200FFFFFFFF#48 = some (.encode 4294967295) ∧
      decodeWord 0x030000000000#48 = some (.decode 0) ∧
      decodeWord 0x040000000001#48 = some (.loadt 0x00#8 1) ∧
      decodeWord 0x05000000FF00#48 = some (.readt 0xFF#8) ∧
      decodeWord 0x060000000000#48 = some .clrt := by decide

/-- A word for each clause of R65, and a state that holds one. -/
theorem witness_IllegalWordsAreListedAndOnlyAnswered :
    [0x00FFFFFFFFFF#48, 0x070000000000#48, 0x010200000000#48, 0x020100000000#48, 0x060100000000#48,
      0x040001000000#48, 0x050001000000#48, 0x050000000001#48, 0x060000000001#48].map decodeWord =
      List.replicate 9 none ∧
    (State.reset.withFetchWord 48 0).seq = .idle ∧
    (State.reset.withFetchWord 48 0).cmd = [0#48] := by decide

theorem witness_ResponseWordsHoldTheirFields :
    (1099511627775 : Nat) < 2 ^ 40 ∧ (4294967295 : Nat) < 2 ^ 32 := by decide

theorem witness_EntryRegisterHoldsTheCode :
    (List.replicate 255 true).length ≤ 255 ∧ ([] : Code).length ≤ 255 :=
  ⟨Nat.le_of_eq List.length_replicate, by decide⟩

theorem witness_EveryStepKeepsTheInvariant :
    Inv busy ∧ step busy = .next
      { busy with
        cmd := [0x030000000001#48], si := [0x63], bo := [true, false, true, false]
        rsp := [0x02000000000000000001#80, 0x00000000000300000000#80] } := ⟨busy_inv, rfl⟩

theorem witness_OnlyTableCommandsChangeTheTable :
    step { busy with cmd := [0x060000000000#48] } =
        .next { busy with cmd := [], ct := [], rsp := [0x02000000000000000001#80, 0#80] } ∧
      ([] : CodeTable) ≠ busy.ct ∧
      exec (.encode 9) busy = .next { busy with seq := .waiting (.encode 9) } ∧
      exec (.decode 9) busy = .next { busy with seq := .waiting (.decode 9) } ∧
      exec (.readt 0#8) busy =
        .next { busy with rsp := [0x02000000000000000001#80, 0#80] } :=
  ⟨rfl, by decide, rfl, rfl, rfl⟩

theorem witness_ResultsDependOnTableAndPayloadOnly :
    payloadReady (.encode 2) busy ∧
      payloadReady (.encode 2) { withTable tableABC with si := [0x61, 0x62] } ∧
      busy.ct = (withTable tableABC).ct ∧ busy.si.take 2 = [0x61#8, 0x62#8] := by decide

theorem witness_StepRunsTheDecodedCommand :
    busy.seq = .idle ∧ busy.cmd = 0x020000000002#48 :: [0x030000000001#48] ∧
      decodeWord 0x020000000002#48 = some (.encode 2) ∧
      ({ busy with seq := .waiting (.decode 4) } : State).seq = .waiting (.decode 4) := by decide

theorem witness_WaitingHasNoEffect :
    State.reset.seq = .idle ∧ State.reset.cmd = [] ∧ ¬ payloadReady (.decode 4) busy ∧
      ({ busy with seq := .waiting (.decode 4) } : State).seq = .waiting (.decode 4) ∧
      ¬ payloadReady (.decode 4) { busy with seq := .waiting (.decode 4) } := by decide

theorem witness_CommandsTakeExactlyTheirPayload :
    payloadReady (.build false 3) busy ∧ payloadReady (.encode 0) busy ∧
      payloadReady (.decode 3) busy ∧ payloadReady (.loadt 0#8 0) busy ∧
      payloadReady (.readt 0#8) busy ∧ payloadReady .clrt busy ∧
      (State.reset.withFetchWord 48 0).seq = .idle ∧
      (State.reset.withFetchWord 48 0).cmd = [0#48] ∧ decodeWord 0#48 = none := by decide

theorem witness_OutputsAreExactlyOutlenItems :
    Inv busy ∧ (Instr.decode 3).WellFormed ∧ payloadReady (.decode 3) busy :=
  ⟨busy_inv, by decide, by decide⟩

theorem busy_ready : CommandReady busy :=
  commandReady_of_decode (w := 0x020000000002#48) (rest := [0x030000000001#48]) (i := .encode 2)
    rfl rfl (by decide) (by decide)

theorem witness_EveryCommandWordIsAnsweredOnce :
    (busy.seq = .idle ∧ busy.cmd = 0x020000000002#48 :: [0x030000000001#48] ∧ CommandReady busy) ∧
      CommandReady { busy with seq := .waiting (.decode 3) } :=
  ⟨⟨rfl, rfl, busy_ready⟩, (by decide : payloadReady (.decode 3) busy)⟩

theorem witness_QueuedCommandsAllComplete :
    busy.seq = .idle ∧ (busy.cmd.map wordSymbols).sum ≤ busy.si.length ∧
      (busy.cmd.map wordBits).sum ≤ busy.bi.length := by decide

theorem witness_HostMovesCommuteWithSteps :
    CommandReady busy ∧ (∃ t, step busy = .next t) ∧ busy.rsp ≠ [] ∧ busy.so ≠ [] ∧ busy.bo ≠ [] :=
  ⟨busy_ready, ⟨_, rfl⟩, by decide, by decide, by decide⟩

theorem witness_EmptyTableIsUsable :
    let s : State := { State.reset with si := [0x61], bi := [true] }
    s.ct = State.reset.ct ∧ s.seq = .idle ∧ 1 ≤ s.si.length ∧ 1 ≤ s.bi.length := by decide

theorem witness_FailedCommandsChangeNothingElse :
    payloadReady (.decode 3) { busy with ct := [] } ∧
      exec (.decode 3) { busy with ct := [] } = .next
        { busy with ct := [], bi := [], rsp := busy.rsp ++ [0x04000000000000000000#80] } ∧
      rspStatus 0x04000000000000000000#80 ≠ 0x00#8 := ⟨by decide, rfl, by decide⟩

theorem witness_StatusesAreThoseOfTheirCommands :
    payloadReady (.build true 0) busy ∧ exec (.build true 0) busy =
      .next { busy with rsp := busy.rsp ++ [0x01000000000000000000#80] } := ⟨by decide, rfl⟩

theorem witness_BuildOfEmptyPayload : 1 ≤ 3 ∧ 3 ≤ busy.si.length := by decide

theorem witness_BuildReplacesTheWholeTable : 1 ≤ 3 ∧ 3 ≤ busy.si.length := by decide

theorem witness_PairsAreInTheUniqueOrder :
    let b := countFrequencies [0x62#8, 0x61#8]
    [0x62#8, 0x61#8].Perm b.ord ∧ [0x62#8, 0x61#8].Pairwise (fun s t => b.freqOf s > b.freqOf t ∨
      (b.freqOf s = b.freqOf t ∧ [0x62#8, 0x61#8].idxOf s < [0x62#8, 0x61#8].idxOf t)) := by
  decide +kernel

theorem witness_OneDistinctSymbolGetsZero :
    let s : State := { State.reset with si := [0x61, 0x61] }
    1 ≤ 2 ∧ 2 ≤ s.si.length ∧ s.si.take 2 = List.replicate 2 0x61#8 := by decide

theorem witness_RemoveTwoSmallestTakesTheLastTwo :
    ([Node.leaf 0#8 3] ++ [Node.leaf 1#8 2, Node.leaf 2#8 2]).Pairwise
      (fun m n => m.weight ≥ n.weight) := by decide

theorem witness_InsertGoesBeforeTheFirstLighter :
    [Node.leaf 0#8 3, Node.leaf 1#8 2].Pairwise (fun m n => m.weight ≥ n.weight) := by decide

theorem witness_MergeLoopBuildsTheRoot :
    [Node.leaf 0#8 3] ≠ [] ∧ 2 ≤ [Node.leaf 0#8 3, Node.leaf 1#8 2].length := by decide

theorem witness_TreeHasTheCountedNodes :
    2 ≤ (countFrequencies [0x61#8, 0x62#8]).ord.length := by decide +kernel

theorem witness_NodeWeightsCountThePayload :
    buildRoot (initialList (countFrequencies [0x61#8, 0x62#8])) =
        some (.internal 2 (.leaf 0x61#8 1) (.leaf 0x62#8 1)) ∧
      (Node.internal 2 (.leaf 0x61#8 1) (.leaf 0x62#8 1)).walk [true] = some (.leaf 0x62#8 1) := by
  decide +kernel

theorem witness_BuiltTablesArePrefixFree : 1 ≤ 3 ∧ 3 ≤ busy.si.length := by decide

theorem witness_BuildIgnoresThePreviousTable :
    1 ≤ 2 ∧ 2 ≤ busy.si.length ∧ busy.si.take 2 = [0x61#8, 0x62#8].take 2 ∧
      2 ≤ ({ State.reset with si := [0x61, 0x62] } : State).si.length := by decide

theorem witness_HigherFrequencyHasNoLongerCode :
    0x62#8 ∈ [0x61#8, 0x61#8, 0x62#8] ∧
      [0x61#8, 0x61#8, 0x62#8].count 0x61#8 > [0x61#8, 0x61#8, 0x62#8].count 0x62#8 := by decide

theorem witness_EncodeConcatenatesTheCodes :
    3 ≤ busy.si.length ∧ ∀ x ∈ busy.si.take 3, CodeTable.read busy.ct x ≠ [] := by decide

theorem witness_EncodeReportsTheFirstMissingCode :
    let s : State := { busy with si := [0x61, 0x7A] }
    2 ≤ s.si.length ∧ 1 < 2 ∧ s.si[1]? = some 0x7A#8 ∧ CodeTable.read s.ct 0x7A#8 = [] ∧
      ∀ j y, j < 1 → s.si[j]? = some y → CodeTable.read s.ct y ≠ [] := by
  refine ⟨by decide, by decide, rfl, rfl, ?_⟩
  intro j y hj hy
  obtain rfl : j = 0 := by omega
  cases hy
  decide

theorem buildTable_ab : buildTable [0x61#8, 0x62#8] = [(0x61#8, [false]), (0x62#8, [true])] := by
  decide +kernel

/-- B2: `BUILD "ab"` on the state after reset. -/
theorem exec_build_ab : exec (.build false 2) { State.reset with si := [0x61, 0x62] } = .next
    { State.reset with ct := [(0x61#8, [false]), (0x62#8, [true])], rsp := [0#80] } := by
  rw [exec_build_ready (by decide), ← buildTable_ab]
  simp [buildAct, respond, okRsp, State.reset, packRsp, statusOk]

theorem witness_EncodeAfterBuild :
    let s : State := { State.reset with si := [0x61, 0x62] }
    1 ≤ 2 ∧ 2 ≤ s.si.length ∧ exec (.build false 2) s = .next
      { State.reset with ct := [(0x61#8, [false]), (0x62#8, [true])], rsp := [0#80] } :=
  ⟨by decide, by decide, exec_build_ab⟩

theorem tableDup_at : DuplicateAt tableDup 0x62#8 := ⟨by decide, 0x61#8, by decide, by decide⟩

theorem tableDup_first : ∀ y, y < 0x62#8 → ¬ DuplicateAt tableDup y := by
  rintro y hy ⟨hp, a, ha, hr⟩
  have hyl := mem_of_read_ne_nil hp
  have hal := mem_of_read_ne_nil (hr ▸ hp : CodeTable.read tableDup a ≠ [])
  simp only [tableDup, List.mem_cons, List.not_mem_nil, or_false, Prod.mk.injEq] at hyl hal
  rcases hyl with ⟨rfl, -⟩ | ⟨rfl, -⟩
  · rcases hal with ⟨rfl, -⟩ | ⟨rfl, -⟩ <;> simp at ha
  · simp at hy

theorem witness_DecodeReportsDuplicateCodes :
    (CodeTable.wf tableDup ∧ 0 ≤ ([] : List Bit).length ∧ DuplicateAt tableDup 0x62#8 ∧
        ∀ y, y < 0x62#8 → ¬ DuplicateAt tableDup y) ∧
      CodeTable.wf busy.ct ∧ 3 ≤ busy.bi.length ∧ ¬ HasDuplicate busy.ct :=
  ⟨⟨by decide, by decide, tableDup_at, tableDup_first⟩, by decide, by decide, tableABC_noDuplicate⟩

theorem shortest_of_prefixFree {t : CodeTable} (h : PrefixFree t) {s : Symbol} {tail : List Bit}
    (hs : CodeTable.read t s ≠ []) : ShortestCodeAt t (CodeTable.read t s ++ tail) s := by
  refine ⟨hs, List.prefix_append _ _, fun a ha hp => ?_⟩
  rcases List.prefix_or_prefix_of_prefix hp (List.prefix_append _ tail) with hle | hle
  · by_cases has : a = s
    · rw [has]
    · exact absurd hle (h a s has ha hs)
  · exact hle.length_le

theorem parse_a : Parses tableABC [false] [0x61#8] [] :=
  Parses.more (t := tableABC) 0x61#8 [] [] [] (shortest_of_prefixFree tableABC_prefixFree (by decide))
    (.done [])

theorem parse_a_cut : Parses tableABC [false, true] [0x61#8] [true] :=
  Parses.more (t := tableABC) 0x61#8 [true] [true] []
    (shortest_of_prefixFree tableABC_prefixFree (by decide)) (.done [true])

theorem cut_noCode : NoCodeAt tableABC [true] := by
  intro a ha hp
  have hl := mem_of_read_ne_nil ha
  simp only [tableABC, List.mem_cons, List.not_mem_nil, or_false, Prod.mk.injEq] at hl
  rcases hl with ⟨rfl, -⟩ | ⟨rfl, -⟩ | ⟨rfl, -⟩ <;> revert hp <;> decide

theorem witness_DecodeTakesTheShortestMatch :
    CodeTable.wf busy.ct ∧ 1 ≤ busy.bi.length ∧ ¬ HasDuplicate busy.ct ∧
      Parses busy.ct (busy.bi.take 1) [0x61#8] [] := ⟨by decide, by decide, tableABC_noDuplicate, parse_a⟩

theorem witness_DecodeReportsTheUnmatchedPosition :
    CodeTable.wf busy.ct ∧ 2 ≤ busy.bi.length ∧ ¬ HasDuplicate busy.ct ∧
      Parses busy.ct (busy.bi.take 2) [0x61#8] [true] ∧ [true] ≠ [] ∧ NoCodeAt busy.ct [true] :=
  ⟨by decide, by decide, tableABC_noDuplicate, parse_a_cut, by decide, cut_noCode⟩

theorem witness_EveryBitSequenceHasOneParse :
    ¬ HasDuplicate tableABC ∧ Parses tableABC [false, true] [0x61#8] [true] ∧
      NoCodeAt tableABC [true] := ⟨tableABC_noDuplicate, parse_a_cut, cut_noCode⟩

theorem witness_DecodeEmptyCases :
    (CodeTable.wf busy.ct ∧ ¬ HasDuplicate busy.ct) ∧ (CodeTable.wf tableDup ∧ HasDuplicate tableDup) ∧
      State.reset.ct = CodeTable.empty ∧ 1 ≤ busy.bi.length :=
  ⟨⟨by decide, tableABC_noDuplicate⟩,
    ⟨by decide, 0x61#8, 0x62#8, by decide, by decide, by decide⟩, rfl, by decide⟩

theorem witness_FirstMatchIsTheOnlyMatch :
    CodeTable.wf tableABC ∧ PrefixFree tableABC ∧ CodeTable.read tableABC 0x62#8 ≠ [] ∧
      inverseMap tableABC = .ok (tableABC.map Prod.swap) :=
  ⟨by decide, tableABC_prefixFree, by decide, by decide⟩

/-- The table of R157. -/
theorem witness_LongerCodeIsShadowedByItsPrefix :
    let t : CodeTable := [(0x61#8, [false]), (0x62#8, [false, true])]
    CodeTable.wf t ∧ inverseMap t = .ok (t.map Prod.swap) ∧ 0x61#8 ≠ 0x62#8 ∧
      CodeTable.read t 0x61#8 ≠ [] ∧ CodeTable.read t 0x61#8 <+: CodeTable.read t 0x62#8 := by decide

theorem witness_DecodeOfEncodeAfterBuildIsTheMessage :
    let s : State := { State.reset with si := [0x61, 0x62] }
    let t : State := { State.reset with ct := [(0x61#8, [false]), (0x62#8, [true])], rsp := [0#80] }
    let u : State := { t with si := [0x62, 0x62, 0x61], bi := [true, true, false] }
    exec (.build false 2) s = .next t ∧ u.ct = t.ct ∧ 3 ≤ u.si.length ∧
      (∀ x ∈ u.si.take 3, x ∈ s.si.take 2) ∧ u.bi.take 3 = [true, true, false] :=
  ⟨exec_build_ab, rfl, by decide, by decide, rfl⟩

theorem witness_PrefixesOfAMessageDecodeOrAreTruncated :
    let s : State := { busy with bi := [false, true] }
    let msg := [0x61#8, 0x62#8]
    CodeTable.wf s.ct ∧ PrefixFree s.ct ∧ (∀ x ∈ msg, CodeTable.read s.ct x ≠ []) ∧
      (concatCodes s.ct (msg.take 1)).length ≤ s.bi.length ∧
      s.bi.take (concatCodes s.ct (msg.take 1)).length = concatCodes s.ct (msg.take 1) ∧
      msg[1]? = some 0x62#8 ∧ [true] ≠ [] ∧ [true] <+: CodeTable.read s.ct 0x62#8 ∧
      [true] ≠ CodeTable.read s.ct 0x62#8 ∧
      s.bi.take (concatCodes s.ct (msg.take 1) ++ [true]).length =
        concatCodes s.ct (msg.take 1) ++ [true] :=
  ⟨by decide, tableABC_prefixFree, by decide, by decide, by decide, rfl, by decide, by decide,
    by decide, by decide⟩

theorem witness_OtherDecoderMechanismsAgree :
    CodeTable.wf tableABC ∧ inverseMap tableABC = .ok (tableABC.map Prod.swap) := by decide

theorem witness_LoadtWritesOneEntry :
    CodeTable.wf busy.ct ∧ 3 ≤ busy.bi.length ∧ 0 ≤ busy.bi.length ∧ 0x62#8 ≠ 0x61#8 := by decide

theorem witness_ReadtAfterLoadtGivesTheBits : CodeTable.wf busy.ct ∧ 3 ≤ busy.bi.length := by decide

theorem witness_ReadtEmitsTheCode : CodeTable.wf busy.ct := by decide

theorem witness_LdtblLoadsExactlyTheList :
    (∀ e ∈ [(0x62#8, [true]), (0x61#8, [false]), (0x61#8, ([] : Code))], e.2.length ≤ 255) ∧
      State.reset.seq = .idle ∧ State.reset.cmd = [] ∧ State.reset.si = [] ∧ State.reset.bi = [] := by
  decide

theorem witness_TableTransferGivesTheSameTable :
    CodeTable.wf tableABC ∧ State.reset.seq = .idle ∧ State.reset.cmd = [] ∧ State.reset.si = [] ∧
      State.reset.bi = [] := by decide

end Sys2Proof.Machine.Tests
end

/-! SUPPORT. The register of an entry (R23) and the fields of a response word (R68), read bit by bit. -/

namespace Sys2Proof.Machine

/-! ## The register of an entry (R23) -/

@[simp] theorem codeNat_append_singleton (c : Code) (b : Bit) :
    codeNat (c ++ [b]) = 2 * codeNat c + b.toNat := by
  simp [codeNat]

/-- Bit `j` of the number of a code is the `j`-th bit from the code's end, and 0 beyond its first. -/
theorem testBit_codeNat (c : Code) (j : Nat) : (codeNat c).testBit j = c.reverse[j]?.getD false := by
  induction c using List.reverseRecOn generalizing j with
  | nil => simp [codeNat]
  | append_singleton c b ih =>
    rw [codeNat_append_singleton, ← Nat.bit_val, List.reverse_append]
    cases j with
    | zero => simp
    | succ j => simpa [Nat.testBit_bit_succ] using ih j

@[simp] theorem entryLen_entryWord (c : Code) : entryLen (entryWord c) = BitVec.ofNat 8 c.length :=
  BitVec.extractLsb'_append_eq_left

@[simp] theorem entryCode_entryWord (c : Code) :
    entryCode (entryWord c) = BitVec.ofNat 255 (codeNat c) := BitVec.extractLsb'_append_eq_right

theorem entryLen_entryWord_toNat {c : Code} (h : c.length ≤ Config.maxLen) :
    (entryLen (entryWord c)).toNat = c.length := by
  rw [entryLen_entryWord, BitVec.toNat_ofNat, Nat.mod_eq_of_lt]
  exact Nat.lt_succ_of_le h

/-- CODE of a register holds the code from its end, with zeros above. -/
theorem getLsbD_entryCode_entryWord (c : Code) {j : Nat} (h : j < Config.maxLen) :
    (entryCode (entryWord c)).getLsbD j = c.reverse[j]?.getD false := by
  rw [entryCode_entryWord, BitVec.getLsbD_ofNat, testBit_codeNat]
  simp only [h, decide_true, Bool.true_and]

/-- The low 255 bits of a register are CODE. -/
theorem getLsbD_eq_entryCode (e : EntryWord) {j : Nat} (h : j < Config.maxLen) :
    e.getLsbD j = (entryCode e).getLsbD j := by
  simp [entryCode, h]

/-- `CODE[LEN-1-i]` is the bit at index `i` of the code. -/
theorem getLsbD_entryCode_of_lt {code : Code} (h : code.length ≤ Config.maxLen) {i : Nat}
    (hi : i < code.length) :
    (entryCode (entryWord code)).getLsbD (code.length - 1 - i) = code[i] := by
  rw [getLsbD_entryCode_entryWord code (by omega), List.getElem?_reverse (by omega)]
  have hidx : code.length - 1 - (code.length - 1 - i) = i := by omega
  simp [hidx, hi]

/-- Reading a register gives the code it was made from. -/
theorem entryBits_entryWord {c : Code} (h : c.length ≤ Config.maxLen) : entryBits (entryWord c) = c := by
  apply List.ext_getElem
  · simp [entryBits, Nat.mod_eq_of_lt (Nat.lt_succ_of_le h)]
  · intro i _ hi
    simp only [entryBits, entryLen_entryWord_toNat h, List.getElem_map, List.getElem_range]
    exact getLsbD_entryCode_of_lt h hi

/-- Settles O7: LEN is the length field itself, and CODE is read bit by bit through the number of the
code. -/
theorem entryRegisterHoldsTheCode : Obligations.EntryRegisterHoldsTheCode := by
  unfold Obligations.EntryRegisterHoldsTheCode
  intro code h
  have hlen : ((entryWord code).extractLsb' 255 8).toNat = code.length := entryLen_entryWord_toNat h
  refine ⟨hlen, ?_, ?_, ?_, entryBits_entryWord h⟩
  · rw [← BitVec.toNat_inj, hlen]
    exact List.length_eq_zero_iff
  · intro i hi
    rw [getLsbD_eq_entryCode _ (show _ < 255 by omega), getLsbD_entryCode_of_lt h hi,
      List.getElem?_eq_getElem hi]
  · intro j hj hj'
    rw [getLsbD_eq_entryCode _ hj', getLsbD_entryCode_entryWord code hj',
      List.getElem?_eq_none (by simpa using hj), Option.getD_none]

/-! ## The fields of a response word (R68) -/

@[simp] theorem rspStatus_packRsp (st : BitVec 8) (n : BitVec 40) (info : BitVec 32) :
    rspStatus (packRsp st n info) = st := by
  ext i hi
  simp only [rspStatus, packRsp, BitVec.getElem_extractLsb']
  grind

@[simp] theorem rspOutlen_packRsp (st : BitVec 8) (n : BitVec 40) (info : BitVec 32) :
    rspOutlen (packRsp st n info) = n := by
  ext i hi
  simp only [rspOutlen, packRsp, BitVec.getElem_extractLsb']
  grind

@[simp] theorem rspInfo_packRsp (st : BitVec 8) (n : BitVec 40) (info : BitVec 32) :
    rspInfo (packRsp st n info) = info := BitVec.extractLsb'_append_eq_right

end Sys2Proof.Machine

/-! SUPPORT. How many bits a code of BUILD can have (R112): ORD repeats no symbol, the node list keeps
its leaves while it is merged, and so a tree has at most 256 leaves. -/

namespace Sys2Proof.Machine

/-! ## The symbol counter (R103) -/

@[simp] theorem freqOf_init (s : Symbol) : BuildWork.init.freqOf s = 0 :=
  Vector.getElem_replicate _

theorem freqOf_count (b : BuildWork) (s x : Symbol) :
    (b.count s).freqOf x = if s = x then b.freqOf s + 1 else b.freqOf x := by
  simp [BuildWork.freqOf, BuildWork.count, Vector.getElem_set, BitVec.toNat_inj]

/-- ORD lists the symbols counted so far, each once (R26). -/
structure BuildWork.OrdListsCounted (b : BuildWork) : Prop where
  nodup : b.ord.Nodup
  mem_iff : ∀ x, x ∈ b.ord ↔ b.freqOf x ≠ 0

theorem ordListsCounted_init : BuildWork.init.OrdListsCounted :=
  ⟨List.nodup_nil, fun x => by rw [freqOf_init]; simp [BuildWork.init]⟩

theorem ordListsCounted_count {b : BuildWork} (h : b.OrdListsCounted) (s : Symbol) :
    (b.count s).OrdListsCounted := by
  obtain ⟨hnodup, hmem⟩ := h
  by_cases hs : b.freqOf s = 0
  · have hord : (b.count s).ord = b.ord ++ [s] := if_pos hs
    have hnew : s ∉ b.ord := by simp [hmem, hs]
    refine ⟨hord ▸ List.nodup_append.2 ⟨hnodup, List.nodup_singleton s, by grind⟩, fun x => ?_⟩
    rw [hord, freqOf_count, List.mem_append, List.mem_singleton, hmem]
    by_cases hx : s = x
    · simp [hx]
    · simp [hx, Ne.symm hx]
  · have hord : (b.count s).ord = b.ord := if_neg hs
    refine ⟨hord ▸ hnodup, fun x => ?_⟩
    rw [hord, freqOf_count, hmem]
    by_cases hx : s = x
    · subst hx; simp [hs]
    · simp [hx]

theorem ordListsCounted_foldl {b : BuildWork} (h : b.OrdListsCounted) (input : List Symbol) :
    (input.foldl BuildWork.count b).OrdListsCounted := by
  induction input generalizing b with
  | nil => exact h
  | cons s input ih => exact ih (ordListsCounted_count h s)

theorem ordListsCounted_countFrequencies (input : List Symbol) :
    (countFrequencies input).OrdListsCounted := ordListsCounted_foldl ordListsCounted_init input

/-- There are NSYM symbols, so a list without repeats has at most that many. -/
theorem symbols_length_le {l : List Symbol} (h : l.Nodup) : l.length ≤ Config.nsym := by
  have := h.length_le_card
  rwa [← FinEnum.card_eq_fintypeCard, FinEnum.card_bitVec] at this

theorem ord_length_le (input : List Symbol) : (countFrequencies input).ord.length ≤ Config.nsym :=
  symbols_length_le (ordListsCounted_countFrequencies input).nodup

/-! ## The order of the leaves (R104, R105) -/

theorem foldl_insertBefore_perm {α : Type} (weight : α → Nat) (ms l : List α) :
    (ms.foldl (fun l m => insertBefore weight m l) l).Perm (ms ++ l) := by
  induction ms generalizing l with
  | nil => exact .refl _
  | cons m ms ih =>
    calc (ms.foldl (fun l m => insertBefore weight m l) (insertBefore weight m l)).Perm
          (ms ++ insertBefore weight m l) := ih _
      List.Perm _ (ms ++ m :: l) := (insertBefore_perm weight m l).append_left ms
      List.Perm _ (m :: ms ++ l) := List.perm_middle

theorem orderPairs_perm (b : BuildWork) : (orderPairs b).Perm b.ord := by
  simpa [orderPairs] using foldl_insertBefore_perm b.freqOf b.ord []

/-! ## The leaves of a node list (R105, R109) -/

/-- The leaves under the entries of a node list, from its front. -/
def listLeaves (list : List Node) : List (Symbol × Nat) := list.flatMap Node.leaves

theorem listLeaves_initialList (b : BuildWork) :
    listLeaves (initialList b) = (orderPairs b).map fun s => (s, b.freqOf s) := by
  simp [listLeaves, initialList, List.flatMap_map, Node.leaves, ← List.map_eq_flatMap]

/-- `removeTwoSmallest` cuts the list before its last two entries. -/
theorem removeTwoSmallest_some {list rest : List Node} {l r : Node}
    (h : removeTwoSmallest list = some (l, r, rest)) : list = rest ++ [l, r] := by
  unfold removeTwoSmallest at h
  split at h
  · rename_i hdrop
    cases h
    rw [← hdrop, List.take_append_drop]
  · cases h

/-- One merge keeps the leaves. -/
theorem listLeaves_mergeOnce (list : List Node) :
    (listLeaves (mergeOnce list)).Perm (listLeaves list) := by
  unfold mergeOnce
  split
  · rename_i l r rest h
    rw [removeTwoSmallest_some h]
    calc (listLeaves (insertNode (Node.join l r) rest)).Perm (listLeaves (Node.join l r :: rest)) :=
          (insertBefore_perm _ _ rest).flatMap_right _
      List.Perm _ (listLeaves (rest ++ [l, r])) := by
        simpa [listLeaves] using List.perm_append_comm (l₁ := l.leaves ++ r.leaves)
  · exact .refl _

theorem listLeaves_mergeLoop (k : Nat) (list : List Node) :
    (listLeaves (mergeLoop k list)).Perm (listLeaves list) := by
  induction k generalizing list with
  | zero => exact .refl _
  | succ k ih =>
    unfold mergeLoop
    split
    · exact (ih _).trans (listLeaves_mergeOnce list)
    · exact .refl _

theorem leaves_finalRoot {list : List Node} {root : Node} (h : finalRoot list = some root) :
    root.leaves = listLeaves list := by
  unfold finalRoot at h
  split at h
  · cases h; simp [listLeaves]
  · cases h

/-- The tree has the leaves of the initial list. -/
theorem leaves_buildRoot {list : List Node} {root : Node} (h : buildRoot list = some root) :
    root.leaves.Perm (listLeaves list) :=
  leaves_finalRoot h ▸ listLeaves_mergeLoop list.length list

/-! ## The length of a code (R112) -/

/-- The tree over the symbols of a payload has at most MAXLEN Internal nodes. -/
theorem internals_buildRoot_le {input : List Symbol} {root : Node}
    (h : buildRoot (initialList (countFrequencies input)) = some root) :
    root.internals ≤ Config.maxLen := by
  have hleaves := (leaves_buildRoot h).length_eq
  rw [listLeaves_initialList, List.length_map, (orderPairs_perm _).length_eq, leaves_length] at hleaves
  have hord : (countFrequencies input).ord.length ≤ 256 := ord_length_le input
  show root.internals ≤ 255
  omega

/-- No code of BUILD is longer than MAXLEN. -/
theorem codesOf_length_le {input : List Symbol} {e : Symbol × Code}
    (h : e ∈ codesOf (initialList (countFrequencies input))) : e.2.length ≤ Config.maxLen := by
  unfold codesOf at h
  split at h
  · obtain rfl := List.mem_singleton.1 h
    show 1 ≤ 255
    decide
  · split at h
    · rename_i root hroot
      have hcode := (deriveCodes_length h).2
      have := internals_buildRoot_le hroot
      simp only [List.length_nil] at hcode
      omega
    · cases h

/-- BUILD leaves CT in canonical form. -/
theorem wf_buildTable (input : List Symbol) : CodeTable.wf (buildTable input) :=
  wf_ofPairs fun _ he => codesOf_length_le he

end Sys2Proof.Machine

/-! SUPPORT. A command as the function R21 derives, `CT × command × payload → CT' × response × output`,
and every command and every step in its terms. -/

namespace Sys2Proof.Machine

/-! ## What a command yields (R21) -/

/-- What a command yields: the new CT, its response and its output. -/
structure Effect where
  ct : CodeTable
  rsp : RspWord
  so : List Symbol
  bo : List Bit

/-- A success: the response counts the output (R68). -/
def Effect.ok (t : CodeTable) (so : List Symbol) (bo : List Bit) : Effect :=
  ⟨t, okRsp (so.length + bo.length), so, bo⟩

/-- An error: CT stays and there is no output (R188). -/
def Effect.fail (t : CodeTable) (e : Error) (info : Nat) : Effect := ⟨t, errRsp e info, [], []⟩

@[simp] theorem Effect.ok_ct (t : CodeTable) (so : List Symbol) (bo : List Bit) :
    (Effect.ok t so bo).ct = t := rfl
@[simp] theorem Effect.ok_rsp (t : CodeTable) (so : List Symbol) (bo : List Bit) :
    (Effect.ok t so bo).rsp = okRsp (so.length + bo.length) := rfl
@[simp] theorem Effect.ok_so (t : CodeTable) (so : List Symbol) (bo : List Bit) :
    (Effect.ok t so bo).so = so := rfl
@[simp] theorem Effect.ok_bo (t : CodeTable) (so : List Symbol) (bo : List Bit) :
    (Effect.ok t so bo).bo = bo := rfl

@[simp] theorem Effect.fail_ct (t : CodeTable) (e : Error) (info : Nat) :
    (Effect.fail t e info).ct = t := rfl
@[simp] theorem Effect.fail_rsp (t : CodeTable) (e : Error) (info : Nat) :
    (Effect.fail t e info).rsp = errRsp e info := rfl
@[simp] theorem Effect.fail_so (t : CodeTable) (e : Error) (info : Nat) :
    (Effect.fail t e info).so = [] := rfl
@[simp] theorem Effect.fail_bo (t : CodeTable) (e : Error) (info : Nat) :
    (Effect.fail t e info).bo = [] := rfl

/-- What a command yields from CT and its payload: R100 and R102, R140, R150, R170, R172, R174. -/
def commandEffect (i : Instr) (t : CodeTable) (symbols : List Symbol) (bits : List Bit) : Effect :=
  match i with
  | .build ne count =>
    if count = 0 then if ne then .fail t .emptyInput 0 else .ok CodeTable.empty [] []
    else .ok (buildTable symbols) [] []
  | .encode _ =>
    match encodeMessage t symbols with
    | .ok out => .ok t [] out
    | .fail e info => .fail t e info
  | .decode _ =>
    match decodeMessage t bits with
    | .ok out => .ok t out []
    | .fail e info => .fail t e info
  | .loadt sym _ => .ok (CodeTable.write t sym bits) [] []
  | .readt sym => .ok t [] (CodeTable.read t sym)
  | .clrt => .ok CodeTable.empty [] []

/-- A command's effect put into the state: the new CT, the response and the output behind the earlier
ones, and the sequencer idle (R44, R67). -/
def Effect.put (f : Effect) (s : State) : State :=
  { s with
    seq := .idle, ct := f.ct, rsp := s.rsp ++ [f.rsp], so := s.so ++ f.so, bo := s.bo ++ f.bo }

@[simp] theorem Effect.put_seq (f : Effect) (s : State) : (f.put s).seq = .idle := rfl
@[simp] theorem Effect.put_ct (f : Effect) (s : State) : (f.put s).ct = f.ct := rfl
@[simp] theorem Effect.put_cmd (f : Effect) (s : State) : (f.put s).cmd = s.cmd := rfl
@[simp] theorem Effect.put_si (f : Effect) (s : State) : (f.put s).si = s.si := rfl
@[simp] theorem Effect.put_bi (f : Effect) (s : State) : (f.put s).bi = s.bi := rfl
@[simp] theorem Effect.put_rsp (f : Effect) (s : State) : (f.put s).rsp = s.rsp ++ [f.rsp] := rfl
@[simp] theorem Effect.put_so (f : Effect) (s : State) : (f.put s).so = s.so ++ f.so := rfl
@[simp] theorem Effect.put_bo (f : Effect) (s : State) : (f.put s).bo = s.bo ++ f.bo := rfl

theorem Effect.put_ok_table (t : CodeTable) (s : State) :
    (Effect.ok t [] []).put s = respond 0 { s with ct := t } := by
  simp [Effect.ok, Effect.put, respond]

theorem Effect.put_ok_bits (out : List Bit) (s : State) :
    (Effect.ok s.ct [] out).put s = respond out.length (emitBO out s) := by
  simp [Effect.ok, Effect.put, respond, emitBO]

theorem Effect.put_ok_symbols (out : List Symbol) (s : State) :
    (Effect.ok s.ct out []).put s = respond out.length (emitSO out s) := by
  simp [Effect.ok, Effect.put, respond, emitSO]

theorem Effect.put_fail (e : Error) (info : Nat) (s : State) :
    (Effect.fail s.ct e info).put s = raise e info s := by
  simp [Effect.fail, Effect.put, raise]

/-- The state without the payload of a command (R43). -/
def takePayload (i : Instr) (s : State) : State :=
  { s with si := s.si.drop (siNeed i), bi := s.bi.drop (biNeed i) }

@[simp] theorem takePayload_seq (i : Instr) (s : State) : (takePayload i s).seq = s.seq := rfl
@[simp] theorem takePayload_ct (i : Instr) (s : State) : (takePayload i s).ct = s.ct := rfl
@[simp] theorem takePayload_cmd (i : Instr) (s : State) : (takePayload i s).cmd = s.cmd := rfl
@[simp] theorem takePayload_si (i : Instr) (s : State) :
    (takePayload i s).si = s.si.drop (siNeed i) := rfl
@[simp] theorem takePayload_bi (i : Instr) (s : State) :
    (takePayload i s).bi = s.bi.drop (biNeed i) := rfl
@[simp] theorem takePayload_rsp (i : Instr) (s : State) : (takePayload i s).rsp = s.rsp := rfl
@[simp] theorem takePayload_so (i : Instr) (s : State) : (takePayload i s).so = s.so := rfl
@[simp] theorem takePayload_bo (i : Instr) (s : State) : (takePayload i s).bo = s.bo := rfl

/-! ## Every command has its effect -/

theorem buildAct_eq (ne : Bool) (count : Nat) (input : List Symbol) (bits : List Bit) (s : State) :
    buildAct ne count input s = (commandEffect (.build ne count) s.ct input bits).put s := by
  rcases buildAct_cases ne count input s with ⟨rfl, rfl, h⟩ | ⟨rfl, rfl, h⟩ | ⟨hc, h⟩
  · exact h.trans (Effect.put_ok_table _ s).symm
  · exact h.trans (Effect.put_fail _ _ s).symm
  · rw [h, ← Effect.put_ok_table]
    simp [commandEffect, hc]

theorem encodeAct_eq (count : Nat) (input : List Symbol) (bits : List Bit) (s : State) :
    encodeAct input s = (commandEffect (.encode count) s.ct input bits).put s := by
  rcases encodeAct_cases input s with ⟨out, hm, h⟩ | ⟨e, info, hm, h⟩
  · rw [h, ← Effect.put_ok_bits]
    simp [commandEffect, hm]
  · rw [h, ← Effect.put_fail]
    simp [commandEffect, hm]

theorem decodeAct_eq (count : Nat) (symbols : List Symbol) (bits : List Bit) (s : State) :
    decodeAct bits s = (commandEffect (.decode count) s.ct symbols bits).put s := by
  rcases decodeAct_cases bits s with ⟨out, hm, h⟩ | ⟨e, info, hm, h⟩
  · rw [h, ← Effect.put_ok_symbols]
    simp [commandEffect, hm]
  · rw [h, ← Effect.put_fail]
    simp [commandEffect, hm]

/-- The effect a command has in a state, on the payload at the head of SI and BI. -/
def effectIn (i : Instr) (s : State) : Effect :=
  commandEffect i s.ct (s.si.take (siNeed i)) (s.bi.take (biNeed i))

/-- A command whose payload has arrived takes it and ends with its effect. -/
theorem exec_ready {i : Instr} {s : State} (h : payloadReady i s) :
    exec i s = .next ((effectIn i s).put (takePayload i s)) := by
  obtain ⟨hsi, hbi⟩ := h
  cases i with
  | build ne count =>
    exact (exec_build_ready (show count ≤ _ from hsi)).trans
      (congrArg Host.Outcome.next (buildAct_eq ne count _ _ _))
  | encode count =>
    exact (exec_encode_ready (show count ≤ _ from hsi)).trans
      (congrArg Host.Outcome.next (encodeAct_eq count _ _ _))
  | decode count =>
    exact (exec_decode_ready (show count ≤ _ from hbi)).trans
      (congrArg Host.Outcome.next (decodeAct_eq count _ _ _))
  | loadt sym clen =>
    exact (exec_loadt_ready (show clen ≤ _ from hbi)).trans
      (congrArg Host.Outcome.next (Effect.put_ok_table _ _).symm)
  | readt sym => exact exec_readt.trans (congrArg Host.Outcome.next (Effect.put_ok_bits _ s).symm)
  | clrt => exact exec_clrt.trans (congrArg Host.Outcome.next (Effect.put_ok_table _ s).symm)

/-- Everything a command can do: wait, or take its payload and end with its effect. -/
theorem exec_cases {i : Instr} {s t : State} (h : exec i s = .next t) :
    (¬ payloadReady i s ∧ t = await i s) ∨
      (payloadReady i s ∧ t = (effectIn i s).put (takePayload i s)) := by
  by_cases hp : payloadReady i s
  · exact .inr ⟨hp, by injection (exec_ready hp).symm.trans h with h; exact h.symm⟩
  · exact .inl ⟨hp, by injection (exec_short hp).symm.trans h with h; exact h.symm⟩

/-! ## What an effect can be -/

/-- A command ends in success, or in an error that keeps CT. -/
theorem commandEffect_cases (i : Instr) (t : CodeTable) (symbols : List Symbol) (bits : List Bit) :
    (∃ t' so bo, commandEffect i t symbols bits = .ok t' so bo) ∨
      ∃ e info, commandEffect i t symbols bits = .fail t e info := by
  cases i with
  | build ne count =>
    simp only [commandEffect]
    split
    · cases ne
      · exact .inl ⟨_, _, _, rfl⟩
      · exact .inr ⟨_, _, rfl⟩
    · exact .inl ⟨_, _, _, rfl⟩
  | encode count =>
    simp only [commandEffect]
    split
    · exact .inl ⟨_, _, _, rfl⟩
    · exact .inr ⟨_, _, rfl⟩
  | decode count =>
    simp only [commandEffect]
    split
    · exact .inl ⟨_, _, _, rfl⟩
    · exact .inr ⟨_, _, rfl⟩
  | loadt sym clen => exact .inl ⟨_, _, _, rfl⟩
  | readt sym => exact .inl ⟨_, _, _, rfl⟩
  | clrt => exact .inl ⟨_, _, _, rfl⟩

/-- Settles O12: both runs end with the effect of the same command on the same CT and payload. -/
theorem resultsDependOnTableAndPayloadOnly : Obligations.ResultsDependOnTableAndPayloadOnly := by
  unfold Obligations.ResultsDependOnTableAndPayloadOnly
  intro i s s' hready hready' hct hsi hbi
  have heffect : effectIn i s' = effectIn i s := by simp only [effectIn, hct, hsi, hbi]
  have hrun' := exec_ready hready'
  rw [heffect] at hrun'
  exact ⟨_, _, (effectIn i s).rsp, (effectIn i s).so, (effectIn i s).bo, exec_ready hready, hrun',
    rfl, rfl, rfl, rfl, rfl, rfl, rfl⟩

/-! ## CT (R22, R55) -/

/-- The commands that write CT. -/
def WritesTable (i : Instr) : Prop :=
  (∃ ne count, i = .build ne count) ∨ (∃ sym clen, i = .loadt sym clen) ∨ i = .clrt

theorem commandEffect_ct {i : Instr} (h : ¬ WritesTable i) (t : CodeTable) (symbols : List Symbol)
    (bits : List Bit) : (commandEffect i t symbols bits).ct = t := by
  cases i with
  | build ne count => exact absurd (.inl ⟨ne, count, rfl⟩) h
  | encode count => simp only [commandEffect]; split <;> rfl
  | decode count => simp only [commandEffect]; split <;> rfl
  | loadt sym clen => exact absurd (.inr (.inl ⟨sym, clen, rfl⟩)) h
  | readt sym => rfl
  | clrt => exact absurd (.inr (.inr rfl)) h

/-- A command that does not write CT leaves it unchanged, also when it waits or fails. -/
theorem exec_ct {i : Instr} (hi : ¬ WritesTable i) {s t : State} (h : exec i s = .next t) :
    t.ct = s.ct := by
  rcases exec_cases h with ⟨-, rfl⟩ | ⟨-, rfl⟩
  · rfl
  · exact commandEffect_ct hi _ _ _

/-- A fetched command is the one in progress, or the one the head of CMD decodes to. -/
theorem fetch_command {i : Instr} {s s' : State} (h : fetch s = .command i s') :
    (s.seq = .waiting i ∧ s' = { s with seq := .idle }) ∨
      ∃ w rest, s.seq = .idle ∧ s.cmd = w :: rest ∧ decodeWord w = some i ∧
        s' = { s with cmd := rest } := by
  rcases fetch_cases s with ⟨-, -, hf⟩ | ⟨j, hj, hf⟩ | ⟨w, rest, j, hs, hc, hd, hf⟩ |
    ⟨w, rest, -, -, -, hf⟩
  · cases hf.symm.trans h
  · cases hf.symm.trans h
    exact .inl ⟨hj, rfl⟩
  · cases hf.symm.trans h
    exact .inr ⟨w, rest, hs, hc, hd, rfl⟩
  · cases hf.symm.trans h

/-- A fetched illegal word is the head of CMD. -/
theorem fetch_illegal_word {s s' : State} (h : fetch s = .illegal s') :
    ∃ w rest, s.seq = .idle ∧ s.cmd = w :: rest ∧ decodeWord w = none ∧ s' = { s with cmd := rest } := by
  rcases fetch_cases s with ⟨-, -, hf⟩ | ⟨j, -, hf⟩ | ⟨w, rest, j, -, -, -, hf⟩ |
    ⟨w, rest, hs, hc, hd, hf⟩
  · cases hf.symm.trans h
  · cases hf.symm.trans h
  · cases hf.symm.trans h
  · cases hf.symm.trans h
    exact ⟨w, rest, hs, hc, hd, rfl⟩

/-- Taking a command leaves CT unchanged. -/
theorem fetch_command_ct {i : Instr} {s s' : State} (h : fetch s = .command i s') : s'.ct = s.ct := by
  rcases fetch_command h with ⟨-, rfl⟩ | ⟨_, _, -, -, -, rfl⟩ <;> rfl

/-- Taking an illegal word leaves CT unchanged. -/
theorem fetch_illegal_ct {s s' : State} (h : fetch s = .illegal s') : s'.ct = s.ct := by
  obtain ⟨_, _, -, -, -, rfl⟩ := fetch_illegal_word h
  rfl

/-- Settles O11: of the ways a step can go, only a command that writes CT changes it. -/
theorem onlyTableCommandsChangeTheTable : Obligations.OnlyTableCommandsChangeTheTable := by
  unfold Obligations.OnlyTableCommandsChangeTheTable
  refine ⟨fun s t hstep hchange => ?_, fun s t => ⟨?_, ?_, ?_⟩⟩
  · rcases step_cases hstep with ⟨-, rfl⟩ | ⟨i, s', hfetch, hexec⟩ | ⟨s', hfetch, rfl⟩
    · exact absurd rfl hchange
    · refine ⟨i, s', hfetch, ?_⟩
      by_contra hi
      exact hchange ((exec_ct hi hexec).trans (fetch_command_ct hfetch))
    · exact absurd (fetch_illegal_ct hfetch) hchange
  · exact fun count => exec_ct (by simp [WritesTable])
  · exact fun count => exec_ct (by simp [WritesTable])
  · exact fun sym => exec_ct (by simp [WritesTable])

/-! ## Fetching (R20, R50) -/

/-- Settles O13: a fetch from an idle sequencer decodes the head of CMD, and one with a command in
progress goes on with it. -/
theorem stepRunsTheDecodedCommand : Obligations.StepRunsTheDecodedCommand := by
  unfold Obligations.StepRunsTheDecodedCommand
  refine ⟨fun s w rest i hseq hcmd hdecode => ?_, fun s i hseq => ?_⟩
  · simp only [step, fetch_legal hseq hcmd hdecode]
  · simp only [step, fetch_waiting hseq]

/-! ## The invariant (R24 c, R68, R69) -/

/-- Every command a word decodes to is well formed (R63). -/
theorem wellFormed_of_decodeWord {w : CmdWord} {i : Instr} (h : decodeWord w = some i) :
    i.WellFormed := by
  have hcount : countField w < Config.countBound := (argField w).isLt
  have hclen : clenField w ≤ Config.maxLen := Nat.le_of_lt_succ (argLowField w).isLt
  unfold decodeWord at h
  split_ifs at h <;> cases h
  · exact decide_eq_true hcount
  · exact decide_eq_true hcount
  · exact decide_eq_true hcount
  · exact decide_eq_true hclen
  · rfl
  · rfl

theorem legalRsp_okRsp (n : Nat) : legalRsp (okRsp n) := by
  simp [legalRsp, okRsp, statusOk]

theorem legalRsp_errRsp (e : Error) (info : Nat) : legalRsp (errRsp e info) := by
  cases e <;> simp [legalRsp, errRsp, statusOk, Error.status]

theorem legalRsp_commandEffect (i : Instr) (t : CodeTable) (symbols : List Symbol) (bits : List Bit) :
    legalRsp (commandEffect i t symbols bits).rsp := by
  rcases commandEffect_cases i t symbols bits with ⟨_, so, bo, h⟩ | ⟨e, info, h⟩
  · rw [h]; exact legalRsp_okRsp _
  · rw [h]; exact legalRsp_errRsp _ _

/-- A well-formed command leaves CT in canonical form: BUILD by the bound on its codes, LOADT by the
range of CLEN. -/
theorem wf_commandEffect {i : Instr} (hi : i.WellFormed) {t : CodeTable} (ht : CodeTable.wf t)
    (symbols : List Symbol) {bits : List Bit} (hbits : bits.length ≤ biNeed i) :
    CodeTable.wf (commandEffect i t symbols bits).ct := by
  by_cases hw : WritesTable i
  · rcases hw with ⟨ne, count, rfl⟩ | ⟨sym, clen, rfl⟩ | rfl
    · by_cases hc : count = 0
      · cases ne
        · simpa [commandEffect, hc] using wf_empty
        · simpa [commandEffect, hc] using ht
      · simpa [commandEffect, hc] using wf_buildTable symbols
    · exact wf_write ht sym (hbits.trans (of_decide_eq_true hi))
    · exact wf_empty
  · rwa [commandEffect_ct hw]

/-- A further legal response keeps all responses legal. -/
theorem legalRsp_append {rs : List RspWord} {r : RspWord} (hrs : ∀ x ∈ rs, legalRsp x)
    (hr : legalRsp r) : ∀ x ∈ rs ++ [r], legalRsp x :=
  List.forall_mem_append.2 ⟨hrs, List.forall_mem_singleton.2 hr⟩

/-- A well-formed command keeps the invariant, whether it waits, fails or succeeds. -/
theorem inv_exec {i : Instr} (hi : i.WellFormed) {s t : State} (hs : Inv s) (h : exec i s = .next t) :
    Inv t := by
  obtain ⟨htable, -, hresponses⟩ := hs
  rcases exec_cases h with ⟨-, rfl⟩ | ⟨-, rfl⟩
  · exact ⟨htable, hi, hresponses⟩
  · exact ⟨wf_commandEffect hi htable _ (List.length_take_le _ _), rfl,
      legalRsp_append hresponses (legalRsp_commandEffect _ _ _ _)⟩

/-- A fetch hands on a well-formed command in a state that meets the invariant. -/
theorem inv_fetch_command {i : Instr} {s s' : State} (hs : Inv s) (h : fetch s = .command i s') :
    i.WellFormed ∧ Inv s' := by
  obtain ⟨htable, hseq, hresponses⟩ := hs
  rcases fetch_command h with ⟨hwait, rfl⟩ | ⟨w, rest, -, -, hdecode, rfl⟩
  · rw [hwait] at hseq
    exact ⟨hseq, htable, rfl, hresponses⟩
  · exact ⟨wellFormed_of_decodeWord hdecode, htable, hseq, hresponses⟩

/-- A fetch hands on an illegal word in a state that meets the invariant. -/
theorem inv_fetch_illegal {s s' : State} (hs : Inv s) (h : fetch s = .illegal s') : Inv s' := by
  obtain ⟨_, _, -, -, -, rfl⟩ := fetch_illegal_word h
  exact ⟨hs.table, hs.sequencer, hs.responses⟩

/-- Answering an illegal word keeps the invariant. -/
theorem inv_illegalWord {s : State} (hs : Inv s) : Inv (illegalWord s) :=
  ⟨hs.table, rfl, legalRsp_append hs.responses (legalRsp_errRsp _ _)⟩

/-- Settles O10: the empty table is canonical, and there is no response yet. -/
theorem resetMeetsTheInvariant : Obligations.ResetMeetsTheInvariant := by
  unfold Obligations.ResetMeetsTheInvariant
  exact ⟨wf_empty, rfl, List.forall_mem_nil _⟩

/-- Settles O9: each way a step can go keeps the invariant. -/
theorem everyStepKeepsTheInvariant : Obligations.EveryStepKeepsTheInvariant := by
  unfold Obligations.EveryStepKeepsTheInvariant
  intro s t hs hstep
  rcases step_cases hstep with ⟨-, rfl⟩ | ⟨i, s', hfetch, hexec⟩ | ⟨s', hfetch, rfl⟩
  · exact hs
  · obtain ⟨hi, hs'⟩ := inv_fetch_command hs hfetch
    exact inv_exec hi hs' hexec
  · exact inv_illegalWord (inv_fetch_illegal hs hfetch)

end Sys2Proof.Machine

/-! SUPPORT. The channels (R42 to R50): what waiting, taking a payload, putting an output and answering
a word do to them, and what a host move between steps does not disturb. -/

namespace Sys2Proof.Machine

/-! ## Steps from what the sequencer finds (R20, R42, R50) -/

theorem step_empty {s : State} (h : s.seq = .idle) (hc : s.cmd = []) : step s = .next s := by
  simp only [step, fetch_empty h hc]

theorem step_waiting {s : State} {i : Instr} (h : s.seq = .waiting i) :
    step s = exec i { s with seq := .idle } := stepRunsTheDecodedCommand.2 s i h

theorem step_legal {s : State} {w : CmdWord} {rest : List CmdWord} {i : Instr} (h : s.seq = .idle)
    (hc : s.cmd = w :: rest) (hd : decodeWord w = some i) : step s = exec i { s with cmd := rest } :=
  stepRunsTheDecodedCommand.1 s w rest i h hc hd

theorem step_illegal {s : State} {w : CmdWord} {rest : List CmdWord} (h : s.seq = .idle)
    (hc : s.cmd = w :: rest) (hd : decodeWord w = none) :
    step s = .next (illegalWord { s with cmd := rest }) := by
  simp only [step, fetch_illegal h hc hd]

/-! ## Waiting (R42, R43, R207) -/

/-- A step of a command in progress whose payload has not all arrived changes nothing. -/
theorem step_waiting_short {s : State} {i : Instr} (h : s.seq = .waiting i)
    (hp : ¬ payloadReady i s) : step s = .next s := by
  have hawait : await i { s with seq := .idle } = s := by simp only [await, ← h]
  have hshort : ¬ payloadReady i { s with seq := .idle } := hp
  rw [step_waiting h, exec_short hshort, hawait]

/-- A state that one step keeps is kept by every run. -/
theorem run_of_step_self {s : State} (h : step s = .next s) (k : Nat) : core.run k s = .next s := by
  induction k with
  | zero => rfl
  | succ k ih => rw [run_succ k h, ih]

/-- Settles O14: every way to wait keeps the state, but for the sequencer that holds the command. -/
theorem waitingHasNoEffect : Obligations.WaitingHasNoEffect := by
  unfold Obligations.WaitingHasNoEffect
  exact ⟨fun s => step_empty, fun i s => exec_short,
    fun i s k hseq hshort => run_of_step_self (step_waiting_short hseq hshort) k⟩

/-! ## Payloads (R43) -/

/-- Settles O15: every command ends in the state without its payload, to which its effect adds nothing
on SI or BI. -/
theorem commandsTakeExactlyTheirPayload : Obligations.CommandsTakeExactlyTheirPayload := by
  unfold Obligations.CommandsTakeExactlyTheirPayload
  refine ⟨fun i s hready => ⟨_, exec_ready hready, ?_⟩, fun s w rest hseq hcmd hdecode =>
    ⟨_, step_illegal hseq hcmd hdecode, rfl, rfl⟩⟩
  cases i <;> exact ⟨rfl, rfl⟩

/-! ## Outputs (R44) -/

theorem okRsp_eq (n : Nat) : okRsp n = packRsp 0x00#8 (BitVec.ofNat 40 n) 0#32 := rfl

theorem okRsp_zero : okRsp 0 = 0x00000000000000000000#80 := by decide

/-- A successful ENCODE loop has appended the codes of its payload. -/
theorem encodeLoop_ok {t : CodeTable} {input : List Symbol} {i : Nat} {out out' : List Bit}
    (h : encodeLoop t i out input = .ok out') : out' = out ++ concatCodes t input := by
  induction input generalizing i out with
  | nil => cases h; simp [concatCodes]
  | cons x input ih =>
    unfold encodeLoop at h
    split at h
    · simpa [concatCodes] using ih h
    · cases h

/-- Under a canonical table each symbol's code has at most MAXLEN bits (R24 c). -/
theorem concatCodes_length_le {t : CodeTable} (ht : CodeTable.wf t) (input : List Symbol) :
    (concatCodes t input).length ≤ input.length * Config.maxLen := by
  induction input with
  | nil => simp [concatCodes]
  | cons x input ih =>
    have hx := read_length_le ht x
    simp only [concatCodes, List.flatMap_cons, List.length_append, List.length_cons,
      Nat.succ_mul] at ih ⊢
    omega

theorem encodeMessage_length_le {t : CodeTable} (ht : CodeTable.wf t) {input : List Symbol}
    {out : List Bit} (h : encodeMessage t input = .ok out) :
    out.length ≤ input.length * Config.maxLen := by
  rw [encodeLoop_ok h]
  exact concatCodes_length_le ht input

/-- The DECODE loop puts out at most one symbol in each round. -/
theorem decodeLoop_length_le {inv : InvMap} {k pos : Nat} {out out' : List Symbol} {rest : List Bit}
    (h : decodeLoop inv k pos out rest = .ok out') : out'.length ≤ out.length + k := by
  induction k generalizing pos out rest with
  | zero =>
    unfold decodeLoop at h
    split at h
    · cases h; exact le_rfl
    · cases h
  | succ k ih =>
    unfold decodeLoop at h
    split at h
    · cases h; omega
    · split at h
      · have := ih h
        simp only [List.length_append, List.length_singleton] at this
        omega
      · cases h

theorem decodeMessage_length_le {t : CodeTable} {bits : List Bit} {out : List Symbol}
    (h : decodeMessage t bits = .ok out) : out.length ≤ bits.length := by
  unfold decodeMessage at h
  split at h
  · simpa using decodeLoop_length_le h
  · cases h

/-- Only DECODE puts symbols on SO. -/
theorem commandEffect_so_eq_nil {i : Instr} (h : ∀ count, i ≠ .decode count) (t : CodeTable)
    (symbols : List Symbol) (bits : List Bit) : (commandEffect i t symbols bits).so = [] := by
  cases i with
  | build ne count => simp only [commandEffect]; split_ifs <;> rfl
  | encode count => simp only [commandEffect]; split <;> rfl
  | decode count => exact absurd rfl (h count)
  | loadt sym clen => rfl
  | readt sym => rfl
  | clrt => rfl

/-- Only ENCODE and READT put bits on BO. -/
theorem commandEffect_bo_eq_nil {i : Instr} (hencode : ∀ count, i ≠ .encode count)
    (hreadt : ∀ sym, i ≠ .readt sym) (t : CodeTable) (symbols : List Symbol) (bits : List Bit) :
    (commandEffect i t symbols bits).bo = [] := by
  cases i with
  | build ne count => simp only [commandEffect]; split_ifs <;> rfl
  | encode count => exact absurd rfl (hencode count)
  | decode count => simp only [commandEffect]; split <;> rfl
  | loadt sym clen => rfl
  | readt sym => exact absurd rfl (hreadt sym)
  | clrt => rfl

/-- DECODE puts out at most one symbol for each bit of its payload. -/
theorem commandEffect_so_length_le (i : Instr) (t : CodeTable) (symbols : List Symbol)
    (bits : List Bit) : (commandEffect i t symbols bits).so.length ≤ bits.length := by
  by_cases hi : ∃ count, i = .decode count
  · obtain ⟨count, rfl⟩ := hi
    simp only [commandEffect]
    split
    · rename_i out hout
      exact decodeMessage_length_le hout
    · exact Nat.zero_le _
  · rw [commandEffect_so_eq_nil fun count h => hi ⟨count, h⟩]
    exact Nat.zero_le _

/-- ENCODE puts out at most MAXLEN bits for each symbol of its payload, READT at most MAXLEN. -/
theorem commandEffect_bo_length_le (i : Instr) {t : CodeTable} (ht : CodeTable.wf t)
    (symbols : List Symbol) (bits : List Bit) :
    (commandEffect i t symbols bits).bo.length ≤ (symbols.length + 1) * Config.maxLen := by
  by_cases hencode : ∃ count, i = .encode count
  · obtain ⟨count, rfl⟩ := hencode
    simp only [commandEffect]
    split
    · rename_i out hout
      exact (encodeMessage_length_le ht hout).trans (Nat.mul_le_mul_right _ (Nat.le_succ _))
    · exact Nat.zero_le _
  · by_cases hreadt : ∃ sym, i = .readt sym
    · obtain ⟨sym, rfl⟩ := hreadt
      exact (read_length_le ht sym).trans (Nat.le_mul_of_pos_left _ (Nat.succ_pos _))
    · rw [commandEffect_bo_eq_nil (fun count h => hencode ⟨count, h⟩) fun sym h => hreadt ⟨sym, h⟩]
      exact Nat.zero_le _

/-- The payload lengths of a well-formed command are below 2^32 (R63). -/
theorem need_lt_of_wellFormed {i : Instr} (h : i.WellFormed) :
    siNeed i < Config.countBound ∧ biNeed i < Config.countBound := by
  have hzero : 0 < Config.countBound := by decide
  cases i with
  | build ne count => exact ⟨of_decide_eq_true h, hzero⟩
  | encode count => exact ⟨of_decide_eq_true h, hzero⟩
  | decode count => exact ⟨hzero, of_decide_eq_true h⟩
  | loadt sym clen =>
    have hclen : clen ≤ Config.maxLen := of_decide_eq_true h
    exact ⟨hzero, Nat.lt_of_le_of_lt hclen (by decide)⟩
  | readt sym => exact ⟨hzero, hzero⟩
  | clrt => exact ⟨hzero, hzero⟩

/-- The number of output items of a well-formed command fits OUTLEN's 40 bits (R68). -/
theorem effectIn_length_lt {i : Instr} (hi : i.WellFormed) {s : State} (ht : CodeTable.wf s.ct) :
    (effectIn i s).so.length + (effectIn i s).bo.length < 2 ^ 40 := by
  obtain ⟨hsi, hbi⟩ := need_lt_of_wellFormed hi
  have hso : (effectIn i s).so.length ≤ (s.bi.take (biNeed i)).length :=
    commandEffect_so_length_le _ _ _ _
  have hbo : (effectIn i s).bo.length ≤ ((s.si.take (siNeed i)).length + 1) * Config.maxLen :=
    commandEffect_bo_length_le _ ht _ _
  simp only [List.length_take, Config.maxLen, Config.countBound] at hsi hbi hso hbo
  omega

/-- OUTLEN counts the output of an effect that fits it, and an effect that is no success has none. -/
theorem outlen_commandEffect {i : Instr} {t : CodeTable} {symbols : List Symbol} {bits : List Bit}
    {f : Effect} (hf : f = commandEffect i t symbols bits)
    (hfits : f.so.length + f.bo.length < 2 ^ 40) :
    (rspOutlen f.rsp).toNat = f.so.length + f.bo.length ∧
      (rspStatus f.rsp ≠ 0x00#8 → f.so = [] ∧ f.bo = [] ∧ rspOutlen f.rsp = 0#40) := by
  rcases commandEffect_cases i t symbols bits with ⟨t', so, bo, h⟩ | ⟨e, info, h⟩
  · obtain rfl := hf.trans h
    refine ⟨?_, fun hfail => absurd ?_ hfail⟩
    · simpa [okRsp_eq] using Nat.mod_eq_of_lt hfits
    · simp [okRsp_eq]
  · obtain rfl := hf.trans h
    simp [errRsp]

/-- Settles O16: an effect's output fits OUTLEN, which counts it, and lies on the command's channel. -/
theorem outputsAreExactlyOutlenItems : Obligations.OutputsAreExactlyOutlenItems := by
  unfold Obligations.OutputsAreExactlyOutlenItems
  intro i s hinv hwf hready
  obtain ⟨houtlen, hfail⟩ := outlen_commandEffect rfl (effectIn_length_lt hwf hinv.table)
  refine ⟨_, _, _, _, exec_ready hready, rfl, rfl, rfl, houtlen, hfail, ?_⟩
  cases i with
  | build ne count =>
    exact ⟨commandEffect_so_eq_nil (by simp) _ _ _, commandEffect_bo_eq_nil (by simp) (by simp) _ _ _⟩
  | encode count => exact commandEffect_so_eq_nil (by simp) _ _ _
  | decode count => exact commandEffect_bo_eq_nil (by simp) (by simp) _ _ _
  | loadt sym clen => exact ⟨rfl, rfl⟩
  | readt sym => rfl
  | clrt => exact ⟨rfl, rfl⟩

/-! ## Queued words (R50, R67, R211) -/

theorem wordSymbols_legal {w : CmdWord} {i : Instr} (h : decodeWord w = some i) :
    wordSymbols w = siNeed i := by simp [wordSymbols, h]

theorem wordBits_legal {w : CmdWord} {i : Instr} (h : decodeWord w = some i) :
    wordBits w = biNeed i := by simp [wordBits, h]

theorem wordSymbols_illegal {w : CmdWord} (h : decodeWord w = none) : wordSymbols w = 0 := by
  simp [wordSymbols, h]

theorem wordBits_illegal {w : CmdWord} (h : decodeWord w = none) : wordBits w = 0 := by
  simp [wordBits, h]

/-- A step on a word, legal or illegal, whose payload has arrived: the word and its payload are taken,
one response is added, and the sequencer is idle. -/
theorem step_word {s : State} {w : CmdWord} {rest : List CmdWord} (h : s.seq = .idle)
    (hc : s.cmd = w :: rest) (hsi : wordSymbols w ≤ s.si.length) (hbi : wordBits w ≤ s.bi.length) :
    ∃ t r, step s = .next t ∧ t.seq = .idle ∧ t.cmd = rest ∧ t.rsp = s.rsp ++ [r] ∧
      t.si = s.si.drop (wordSymbols w) ∧ t.bi = s.bi.drop (wordBits w) := by
  cases hd : decodeWord w with
  | none =>
    refine ⟨_, _, step_illegal h hc hd, rfl, rfl, rfl, ?_, ?_⟩
    · rw [wordSymbols_illegal hd]; rfl
    · rw [wordBits_illegal hd]; rfl
  | some i =>
    rw [wordSymbols_legal hd] at hsi ⊢
    rw [wordBits_legal hd] at hbi ⊢
    have hready : payloadReady i { s with cmd := rest } := ⟨hsi, hbi⟩
    exact ⟨_, _, (step_legal h hc hd).trans (exec_ready hready), rfl, rfl, rfl, rfl, rfl⟩

/-- Settles O18, by induction on the words queued: each step answers the first and leaves the payloads
of the others. -/
theorem queuedCommandsAllComplete : Obligations.QueuedCommandsAllComplete := by
  unfold Obligations.QueuedCommandsAllComplete
  intro s
  induction hc : s.cmd generalizing s with
  | nil => exact fun hseq _ _ => ⟨s, [], rfl, hc, hseq, by simp, rfl, rfl, rfl⟩
  | cons w rest ih =>
    intro hseq hsi hbi
    simp only [List.map_cons, List.sum_cons] at hsi hbi ⊢
    obtain ⟨u, r, hstep, hseq', hcmd', hrsp', hsi', hbi'⟩ :=
      step_word hseq hc (by omega) (by omega)
    obtain ⟨t, rs, hrun, hcmd, hidle, hrsp, hlen, hsiEnd, hbiEnd⟩ := ih u hcmd' hseq'
      (by rw [hsi', List.length_drop]; omega) (by rw [hbi', List.length_drop]; omega)
    refine ⟨t, r :: rs, (run_succ _ hstep).trans hrun, hcmd, hidle, ?_, by simp [hlen], ?_, ?_⟩
    · rw [hrsp, hrsp', List.append_assoc, List.singleton_append]
    · rw [hsiEnd, hsi', List.drop_drop]
    · rw [hbiEnd, hbi', List.drop_drop]

/-! ## Host moves between steps (R42, R208) -/

/-- A move that sends, or takes an item that is there. -/
def HostMove.Harmless (s : State) : HostMove → Prop
  | .sendCmd _ | .sendSI _ | .sendBI _ => True
  | .takeRsp => s.rsp ≠ []
  | .takeSO => s.so ≠ []
  | .takeBO => s.bo ≠ []
  | .reset => False

/-- A move that takes from an output channel. -/
def HostMove.IsTake (m : HostMove) : Prop := m = .takeRsp ∨ m = .takeSO ∨ m = .takeBO

/-- Whether a move can be made depends on the output channels alone. -/
theorem HostMove.Harmless.congr {m : HostMove} {s s' : State} (h : m.Harmless s) (hrsp : s'.rsp = s.rsp)
    (hso : s'.so = s.so) (hbo : s'.bo = s.bo) : m.Harmless s' := by
  unfold HostMove.Harmless at h ⊢
  rwa [hrsp, hso, hbo]

theorem HostMove.Harmless.ne_reset {m : HostMove} {s : State} (h : m.Harmless s) : m ≠ .reset := by
  rintro rfl
  exact h

section Moves

variable {m : HostMove} {s s' t : State} {i : Instr}

/-- The host does not write CT but by reset. -/
theorem hostMove_ct (hm : m ≠ .reset) : (hostMove m s).ct = s.ct := by
  cases m with
  | reset => exact absurd rfl hm
  | _ => rfl

/-- The host does not move the sequencer but by reset. -/
theorem hostMove_seq (hm : m ≠ .reset) : (hostMove m s).seq = s.seq := by
  cases m with
  | reset => exact absurd rfl hm
  | _ => rfl

/-- What arrives on SI comes behind what is there. -/
theorem hostMove_si (hm : m ≠ .reset) : s.si <+: (hostMove m s).si := by
  cases m with
  | reset => exact absurd rfl hm
  | sendSI q => exact List.prefix_append _ _
  | _ => exact List.prefix_rfl

/-- What arrives on BI comes behind what is there. -/
theorem hostMove_bi (hm : m ≠ .reset) : s.bi <+: (hostMove m s).bi := by
  cases m with
  | reset => exact absurd rfl hm
  | sendBI q => exact List.prefix_append _ _
  | _ => exact List.prefix_rfl

/-- A payload that has arrived stays. -/
theorem payloadReady_hostMove (hm : m ≠ .reset) (h : payloadReady i s) :
    payloadReady i (hostMove m s) :=
  ⟨h.1.trans (hostMove_si hm).length_le, h.2.trans (hostMove_bi hm).length_le⟩

/-- The first items of a channel are those of a longer one that begins with it. -/
theorem take_of_prefix {α : Type} {l l' : List α} (h : l <+: l') {n : Nat} (hn : n ≤ l.length) :
    l'.take n = l.take n := by
  obtain ⟨q, rfl⟩ := h
  exact List.take_append_of_le_length hn

/-- A command sees the same CT and the same payload after the move. -/
theorem effectIn_hostMove (hm : m ≠ .reset) (h : payloadReady i s) :
    effectIn i (hostMove m s) = effectIn i s := by
  obtain ⟨hsi, hbi⟩ := h
  simp only [effectIn, hostMove_ct hm, take_of_prefix (hostMove_si hm) hsi,
    take_of_prefix (hostMove_bi hm) hbi]

/-- Taking a payload that has arrived and a host move commute. -/
theorem takePayload_hostMove (hm : m ≠ .reset) (h : payloadReady i s) :
    takePayload i (hostMove m s) = hostMove m (takePayload i s) := by
  obtain ⟨hsi, hbi⟩ := h
  cases m with
  | reset => exact absurd rfl hm
  | sendSI q => simp only [takePayload, hostMove, List.drop_append_of_le_length hsi]
  | sendBI q => simp only [takePayload, hostMove, List.drop_append_of_le_length hbi]
  | _ => rfl

/-- Putting an effect behind what is on the output channels and a host move commute. -/
theorem Effect.put_hostMove (f : Effect) (hm : m.Harmless s) :
    f.put (hostMove m s) = hostMove m (f.put s) := by
  cases m with
  | reset => exact absurd rfl hm.ne_reset
  | takeRsp => simp only [Effect.put, hostMove, List.tail_append_of_ne_nil hm]
  | takeSO => simp only [Effect.put, hostMove, List.tail_append_of_ne_nil hm]
  | takeBO => simp only [Effect.put, hostMove, List.tail_append_of_ne_nil hm]
  | _ => rfl

/-- A command whose payload has arrived and a host move commute. -/
theorem exec_hostMove_of_ready (hm : m.Harmless s) (h : payloadReady i s) :
    exec i (hostMove m s) = .next (hostMove m ((effectIn i s).put (takePayload i s))) := by
  have hreset := hm.ne_reset
  rw [exec_ready (payloadReady_hostMove hreset h), effectIn_hostMove hreset h,
    takePayload_hostMove hreset h,
    Effect.put_hostMove (s := takePayload i s) _ (hm.congr rfl rfl rfl)]

/-- An illegal word's answer and a host move commute. -/
theorem illegalWord_hostMove (hm : m.Harmless s) :
    illegalWord (hostMove m s) = hostMove m (illegalWord s) := by
  rw [illegalWord, illegalWord, ← Effect.put_fail, ← Effect.put_fail, hostMove_ct hm.ne_reset,
    Effect.put_hostMove _ hm]

/-- A command that is fetched is fetched after the move too. -/
theorem fetch_command_hostMove (hm : m ≠ .reset) (h : fetch s = .command i s') :
    fetch (hostMove m s) = .command i (hostMove m s') := by
  have hseq' := hostMove_seq (s := s) hm
  rcases fetch_command h with ⟨hseq, rfl⟩ | ⟨w, rest, hseq, hcmd, hdecode, rfl⟩
  · rw [fetch_waiting (hseq'.trans hseq)]
    cases m with
    | reset => exact absurd rfl hm
    | _ => rfl
  · cases m with
    | reset => exact absurd rfl hm
    | sendCmd w' =>
      exact fetch_legal (rest := rest ++ [w']) hseq (by simp [hostMove, hcmd]) hdecode
    | _ => exact fetch_legal hseq hcmd hdecode

/-- An illegal word that is fetched is fetched after the move too. -/
theorem fetch_illegal_hostMove (hm : m ≠ .reset) (h : fetch s = .illegal s') :
    fetch (hostMove m s) = .illegal (hostMove m s') := by
  obtain ⟨w, rest, hseq, hcmd, hdecode, rfl⟩ := fetch_illegal_word h
  cases m with
  | reset => exact absurd rfl hm
  | sendCmd w' =>
    exact fetch_illegal (rest := rest ++ [w']) hseq (by simp [hostMove, hcmd]) hdecode
  | _ => exact fetch_illegal hseq hcmd hdecode

/-- A fetch finds nothing exactly when the sequencer is idle before an empty CMD. -/
theorem fetch_nothing_iff : fetch s = .nothing ↔ s.seq = .idle ∧ s.cmd = [] := by
  refine ⟨fun h => ?_, fun ⟨hseq, hcmd⟩ => fetch_empty hseq hcmd⟩
  rcases fetch_cases s with ⟨hseq, hcmd, -⟩ | ⟨i, -, hf⟩ | ⟨w, rest, i, -, -, -, hf⟩ |
    ⟨w, rest, -, -, -, hf⟩
  · exact ⟨hseq, hcmd⟩
  · cases hf.symm.trans h
  · cases hf.symm.trans h
  · cases hf.symm.trans h

theorem not_commandReady_of_fetch_nothing (h : fetch s = .nothing) : ¬ CommandReady s := by
  obtain ⟨hseq, hcmd⟩ := fetch_nothing_iff.1 h
  simp [CommandReady, hseq, hcmd]

/-- HFM is ready when it fetches a command only with the payload there. -/
theorem payloadReady_of_fetch_command (hready : CommandReady s) (h : fetch s = .command i s') :
    payloadReady i s' := by
  unfold CommandReady at hready
  rcases fetch_command h with ⟨hseq, rfl⟩ | ⟨w, rest, hseq, hcmd, hdecode, rfl⟩
  · rwa [hseq] at hready
  · rw [hseq, hcmd] at hready
    exact hready i hdecode

/-- A wait and a take commute: a take brings no payload and sends no word. -/
theorem exec_hostMove_of_short (hm : m.IsTake) (h : ¬ payloadReady i s) :
    exec i (hostMove m s) = .next (hostMove m (await i s)) := by
  rcases hm with rfl | rfl | rfl <;> exact exec_short h

theorem fetch_nothing_hostMove (hm : m.IsTake) (h : fetch s = .nothing) :
    fetch (hostMove m s) = .nothing := by
  obtain ⟨hseq, hcmd⟩ := fetch_nothing_iff.1 h
  rcases hm with rfl | rfl | rfl <;> exact fetch_empty hseq hcmd

/-- A step and a host move commute when the step waits for nothing the move could bring. -/
theorem step_hostMove (hm : m.Harmless s) (hwait : CommandReady s ∨ m.IsTake) (h : step s = .next t) :
    step (hostMove m s) = .next (hostMove m t) := by
  rcases step_cases h with ⟨hfetch, rfl⟩ | ⟨i, s', hfetch, hexec⟩ | ⟨s', hfetch, rfl⟩
  · have htake := hwait.resolve_left (not_commandReady_of_fetch_nothing hfetch)
    simp only [step, fetch_nothing_hostMove htake hfetch]
  · simp only [step, fetch_command_hostMove hm.ne_reset hfetch]
    rcases exec_cases hexec with ⟨hshort, rfl⟩ | ⟨hready, rfl⟩
    · exact exec_hostMove_of_short
        (hwait.resolve_left fun hr => hshort (payloadReady_of_fetch_command hr hfetch)) hshort
    · have hm' : m.Harmless s' := by
        rcases fetch_command hfetch with ⟨-, rfl⟩ | ⟨w, rest, -, -, -, rfl⟩ <;>
          exact hm.congr rfl rfl rfl
      exact exec_hostMove_of_ready hm' hready
  · simp only [step, fetch_illegal_hostMove hm.ne_reset hfetch]
    obtain ⟨w, rest, -, -, -, rfl⟩ := fetch_illegal_word hfetch
    exact congrArg Host.Outcome.next (illegalWord_hostMove (hm.congr rfl rfl rfl))

end Moves

/-- Settles O20: a send commutes with the step of a ready command, a take of an item that is there with
every step. -/
theorem hostMovesCommuteWithSteps : Obligations.HostMovesCommuteWithSteps := by
  unfold Obligations.HostMovesCommuteWithSteps
  refine ⟨fun s t m hready hstep hsend => ?_, fun s t hstep => ⟨?_, ?_, ?_⟩⟩
  · have hm : m.Harmless s := by
      rcases hsend with ⟨w, rfl⟩ | ⟨q, rfl⟩ | ⟨q, rfl⟩ <;> trivial
    exact step_hostMove hm (.inl hready) hstep
  · exact fun hrsp => step_hostMove hrsp (.inr (.inl rfl)) hstep
  · exact fun hso => step_hostMove hso (.inr (.inr (.inl rfl))) hstep
  · exact fun hbo => step_hostMove hbo (.inr (.inr (.inr rfl))) hstep

/-! ## READT after LOADT (R45, R53) -/

/-- Settles O54: READT reads the entry LOADT has just written. -/
theorem readtAfterLoadtGivesTheBits : Obligations.ReadtAfterLoadtGivesTheBits := by
  unfold Obligations.ReadtAfterLoadtGivesTheBits
  intro sym clen s hwf hclen
  have hread : CodeTable.read (CodeTable.write s.ct sym (s.bi.take clen)) sym = s.bi.take clen := by
    rw [read_write hwf, if_pos rfl]
  refine ⟨_, _, exec_loadt_ready hclen, exec_readt, ?_, ?_⟩
  · simp [loadtAct, hread]
  · simpa [loadtAct, hread, okRsp_zero, hclen] using okRsp_eq clen

end Sys2Proof.Machine

/-! SUPPORT. The words of the commands (R61 to R65): a word as its smallest fields, and a decoded
command as a row the word matches with the operands in their fields. -/

namespace Sys2Proof

open Laws.RowMatch (rowOf)

/-! ## ARG of format T and FLAGS as their fields (R62, R63) -/

theorem append_inj {m n : Nat} {a a' : BitVec m} {b b' : BitVec n} :
    a ++ b = a' ++ b' ↔ a = a' ∧ b = b' := by
  constructor
  · intro h
    exact ⟨by simpa only [BitVec.extractLsb'_append_eq_left] using congrArg (BitVec.extractLsb' n m) h,
      by simpa only [BitVec.extractLsb'_append_eq_right] using congrArg (BitVec.extractLsb' 0 n) h⟩
  · rintro ⟨rfl, rfl⟩; rfl

/-- ARG of format T with its upper half as well (R62). -/
def packArg (high : BitVec 16) (sym : Symbol) (low : BitVec 8) : BitVec 32 := high ++ sym ++ low

theorem packTableArg_eq (sym : Symbol) (low : BitVec 8) :
    packTableArg sym low = packArg 0#16 sym low := rfl

theorem packArg_inj {high high' : BitVec 16} {sym sym' : Symbol} {low low' : BitVec 8} :
    packArg high sym low = packArg high' sym' low' ↔ high = high' ∧ sym = sym' ∧ low = low' := by
  rw [packArg, packArg, append_inj (m := 24), append_inj (m := 16), and_assoc]

/-- ARG is its fields (R62). -/
theorem packArg_fields (w : CmdWord) :
    packArg (argHighField w) (symField w) (argLowField w) = argField w := by
  have hlow : (argField w).extractLsb' 8 24 ++ argLowField w = argField w :=
    BitVec.extractLsb'_append_extractLsb' (w := 24) (len := 8)
  have hhigh : argHighField w ++ symField w = (argField w).extractLsb' 8 24 :=
    BitVec.extractLsb'_append_extractLsb'_eq_extractLsb' (len₁ := 8) (len₂ := 16) rfl
  rw [packArg, hhigh, hlow]

/-- What the fields of a word with a given format T ARG are. -/
theorem fields_of_argField {w : CmdWord} {high : BitVec 16} {sym : Symbol} {low : BitVec 8}
    (h : argField w = packArg high sym low) :
    argHighField w = high ∧ symField w = sym ∧ argLowField w = low :=
  packArg_inj.1 ((packArg_fields w).trans h)

/-- Masking ARG masks its fields. -/
theorem packArg_and (high high' : BitVec 16) (sym sym' : Symbol) (low low' : BitVec 8) :
    packArg high sym low &&& packArg high' sym' low' =
      packArg (high &&& high') (sym &&& sym') (low &&& low') :=
  BitVec.and_append.trans (congrArg (fun x : BitVec 24 => x ++ (low &&& low')) BitVec.and_append)

/-- LOADT's reserved bits of ARG. -/
theorem argField_and_high (w : CmdWord) :
    argField w &&& 0xFFFF0000#32 = 0#32 ↔ argHighField w = 0#16 := by
  rw [← packArg_fields w, show 0xFFFF0000#32 = packArg (BitVec.allOnes 16) 0#8 0#8 from rfl,
    show 0#32 = packArg 0#16 0#8 0#8 from rfl, packArg_and, packArg_inj]
  simp only [BitVec.and_allOnes, BitVec.and_zero, and_true]

/-- READT's reserved bits of ARG. -/
theorem argField_and_reserved (w : CmdWord) :
    argField w &&& 0xFFFF00FF#32 = 0#32 ↔ argHighField w = 0#16 ∧ argLowField w = 0#8 := by
  rw [← packArg_fields w, show 0xFFFF00FF#32 = packArg (BitVec.allOnes 16) 0#8 (BitVec.allOnes 8) from rfl,
    show 0#32 = packArg 0#16 0#8 0#8 from rfl, packArg_and, packArg_inj]
  simp only [BitVec.and_allOnes, BitVec.and_zero, true_and]

/-- FLAGS is its seven reserved bits of format C and NE. -/
theorem flags_fields (x : BitVec 8) : x.extractLsb' 1 7 ++ x.extractLsb' 0 1 = x :=
  BitVec.extractLsb'_append_extractLsb' (w := 7) (len := 1)

/-- BUILD's reserved bits of FLAGS. -/
theorem flags_and_reserved (x : BitVec 8) : x &&& 0xFE#8 = 0#8 ↔ x.extractLsb' 1 7 = 0#7 := by
  conv_lhs => rw [← flags_fields x]
  rw [show 0xFE#8 = BitVec.allOnes 7 ++ 0#1 from rfl, show 0#8 = 0#7 ++ 0#1 from rfl,
    BitVec.and_append, append_inj]
  simp only [BitVec.and_allOnes, BitVec.and_zero, and_true]

/-- Without reserved bits FLAGS is NE. -/
theorem flags_of_ne {x : BitVec 8} (h : x.extractLsb' 1 7 = 0#7) :
    (if x.getLsbD 0 then 1#8 else 0#8) = x := by
  conv_rhs => rw [← flags_fields x, h]
  have hbit : x.extractLsb' 0 1 = BitVec.ofBool (x.getLsbD 0) := by
    ext i hi
    obtain rfl : i = 0 := by omega
    simp
  rw [hbit]
  cases x.getLsbD 0 <;> rfl

/-! ## The rows in the smallest fields (R64) -/

theorem buildRow_iff (w : CmdWord) :
    buildRow.matches w = true ↔ opField w = 0x01#8 ∧ (flagsField w).extractLsb' 1 7 = 0#7 := by
  rw [buildRow_matches, flags_and_reserved]

theorem loadtRow_iff (w : CmdWord) :
    loadtRow.matches w = true ↔ opField w = 0x04#8 ∧ flagsField w = 0#8 ∧ argHighField w = 0#16 := by
  rw [loadtRow_matches, argField_and_high]

theorem readtRow_iff (w : CmdWord) :
    readtRow.matches w = true ↔
      opField w = 0x05#8 ∧ flagsField w = 0#8 ∧ argHighField w = 0#16 ∧ argLowField w = 0#8 := by
  rw [readtRow_matches, argField_and_reserved]

/-! ## What a word decodes to (R63, R64) -/

/-- The command `i` with the operands that stand in a word's fields (R63). -/
def withOperands (i : Instr) (w : CmdWord) : Instr :=
  match i with
  | .build _ _ => .build (neField w) (countField w)
  | .encode _ => .encode (countField w)
  | .decode _ => .decode (countField w)
  | .loadt _ _ => .loadt (symField w) (clenField w)
  | .readt _ => .readt (symField w)
  | .clrt => .clrt

/-- A word that matches a command's row decodes to that command with the word's operands: the rows
before it have another OP. -/
theorem decodeWord_of_matches {i : Instr} {w : CmdWord} (h : (rowOf i).matches w = true) :
    decodeWord w = some (withOperands i w) := by
  cases i with
  | build ne count => exact if_pos h
  | encode count =>
    have hop := ((encodeRow_matches w).1 h).1
    rw [rowOf] at h
    simp [decodeWord, buildRow_matches, hop, h, withOperands]
  | decode count =>
    have hop := ((decodeRow_matches w).1 h).1
    rw [rowOf] at h
    simp [decodeWord, buildRow_matches, encodeRow_matches, hop, h, withOperands]
  | loadt sym clen =>
    have hop := ((loadtRow_matches w).1 h).1
    rw [rowOf] at h
    simp [decodeWord, buildRow_matches, encodeRow_matches, decodeRow_matches, hop, h, withOperands]
  | readt sym =>
    have hop := ((readtRow_matches w).1 h).1
    rw [rowOf] at h
    simp [decodeWord, buildRow_matches, encodeRow_matches, decodeRow_matches, loadtRow_matches, hop, h,
      withOperands]
  | clrt =>
    have hop := ((clrtRow_matches w).1 h).1
    rw [rowOf] at h
    simp [decodeWord, buildRow_matches, encodeRow_matches, decodeRow_matches, loadtRow_matches,
      readtRow_matches, hop, h, withOperands]

/-- A decoded word matches the command's row, and the operands are the word's. -/
theorem matches_of_decodeWord {i : Instr} {w : CmdWord} (h : decodeWord w = some i) :
    (rowOf i).matches w = true ∧ withOperands i w = i := by
  unfold decodeWord at h
  split_ifs at h with hrow hrow hrow hrow hrow hrow <;> cases h <;> exact ⟨hrow, rfl⟩

/-- A word is a command exactly when it matches the command's row with the operands in their fields. -/
theorem decodeWord_eq_some_iff {i : Instr} {w : CmdWord} :
    decodeWord w = some i ↔ (rowOf i).matches w = true ∧ withOperands i w = i := by
  refine ⟨matches_of_decodeWord, fun ⟨hrow, hoperands⟩ => ?_⟩
  rw [decodeWord_of_matches hrow, hoperands]

/-- A word is illegal exactly when it matches no row (R65). -/
theorem decodeWord_eq_none_iff {w : CmdWord} :
    decodeWord w = none ↔ ¬ buildRow.matches w = true ∧ ¬ encodeRow.matches w = true ∧
      ¬ decodeRow.matches w = true ∧ ¬ loadtRow.matches w = true ∧ ¬ readtRow.matches w = true ∧
        ¬ clrtRow.matches w = true := by
  unfold decodeWord
  split_ifs with h1 h2 h3 h4 h5 h6 <;> simp [*]

/-! ## Round trips (R61 to R65) -/

/-- The encoder puts the operands of a well-formed command where the decoder reads them. -/
theorem withOperands_encodeWord {i : Instr} (h : i.WellFormed) : withOperands i (encodeWord i) = i := by
  have hcount {c : Nat} (hc : c < Config.countBound) : (BitVec.ofNat 32 c).toNat = c :=
    (BitVec.toNat_ofNat c 32).trans (Nat.mod_eq_of_lt hc)
  cases i with
  | build ne count =>
    have hc := hcount (of_decide_eq_true h)
    cases ne <;> simp [withOperands, encodeWord, neField, countField, hc]
  | encode count =>
    have hc := hcount (of_decide_eq_true h)
    simp [withOperands, encodeWord, countField, hc]
  | decode count =>
    have hc := hcount (of_decide_eq_true h)
    simp [withOperands, encodeWord, countField, hc]
  | loadt sym clen =>
    have hclen : clen ≤ Config.maxLen := of_decide_eq_true h
    have hlen : (BitVec.ofNat 8 clen).toNat = clen :=
      (BitVec.toNat_ofNat clen 8).trans (Nat.mod_eq_of_lt (Nat.lt_succ_of_le hclen))
    obtain ⟨-, hsym, hlow⟩ := fields_of_argField (w := encodeWord (.loadt sym clen))
      (argField_packCmd _ _ _)
    simp only [withOperands, clenField, hsym, hlow, hlen]
  | readt sym =>
    obtain ⟨-, hsym, -⟩ := fields_of_argField (w := encodeWord (.readt sym)) (argField_packCmd _ _ _)
    simp only [withOperands, hsym]
  | clrt => rfl

/-- The word of a command matches the command's row. -/
theorem rowOf_matches_encodeWord (i : Instr) : (rowOf i).matches (encodeWord i) = true := by
  cases i with
  | build ne count => exact Laws.RowMatch.build ne count
  | encode count => exact Laws.RowMatch.encode count
  | decode count => exact Laws.RowMatch.decode count
  | loadt sym clen => exact Laws.RowMatch.loadt sym clen
  | readt sym => exact Laws.RowMatch.readt sym
  | clrt => exact Laws.RowMatch.clrt

/-- Settles O1: the command's word matches the command's row and holds its operands. -/
theorem decodeOfEncodeIsIdentity : Obligations.DecodeOfEncodeIsIdentity := by
  unfold Obligations.DecodeOfEncodeIsIdentity
  exact fun i hi =>
    decodeWord_eq_some_iff.2 ⟨rowOf_matches_encodeWord i, withOperands_encodeWord hi⟩

/-- The word of a command with another word's operands is that word, when it matches the command's
row: what is no operand is fixed by the row. -/
theorem encodeWord_withOperands {i : Instr} {w : CmdWord} (h : (rowOf i).matches w = true) :
    encodeWord (withOperands i w) = w := by
  have hcount : BitVec.ofNat 32 (countField w) = argField w := by simp [countField]
  have hclen : BitVec.ofNat 8 (clenField w) = argLowField w := by simp [clenField]
  conv_rhs => rw [← packCmd_fields w]
  cases i with
  | build ne count =>
    obtain ⟨hop, hflags⟩ := (buildRow_iff w).1 h
    rw [withOperands, encodeWord, hcount, hop, neField, flags_of_ne hflags]
  | encode count =>
    obtain ⟨hop, hflags⟩ := (encodeRow_matches w).1 h
    rw [withOperands, encodeWord, hcount, hop, hflags]
  | decode count =>
    obtain ⟨hop, hflags⟩ := (decodeRow_matches w).1 h
    rw [withOperands, encodeWord, hcount, hop, hflags]
  | loadt sym clen =>
    obtain ⟨hop, hflags, hhigh⟩ := (loadtRow_iff w).1 h
    rw [withOperands, encodeWord, hclen, packTableArg_eq, ← hhigh, packArg_fields, hop, hflags]
  | readt sym =>
    obtain ⟨hop, hflags, hhigh, hlow⟩ := (readtRow_iff w).1 h
    rw [withOperands, encodeWord, packTableArg_eq, ← hhigh, ← hlow, packArg_fields, hop, hflags, hlow]
  | clrt =>
    obtain ⟨hop, hflags, harg⟩ := (clrtRow_matches w).1 h
    rw [withOperands, encodeWord, hop, hflags, harg]

/-- Settles O2: a decoded command is its row with the word's operands. -/
theorem encodeOfDecodeIsIdentity : Obligations.EncodeOfDecodeIsIdentity := by
  unfold Obligations.EncodeOfDecodeIsIdentity
  intro w i h
  obtain ⟨hrow, hoperands⟩ := matches_of_decodeWord h
  have hword := encodeWord_withOperands hrow
  rw [hoperands] at hword
  exact ⟨Machine.wellFormed_of_decodeWord h, hword⟩

/-! ## The operands and the reserved bits as bits of the word (R62, R63) -/

theorem neField_eq (w : CmdWord) : neField w = w.getLsbD 32 := by simp [neField, flagsField]

theorem symField_eq (w : CmdWord) : symField w = w.extractLsb' 8 8 :=
  BitVec.extractLsb'_extractLsb'_of_le (by decide)

theorem argHighField_eq (w : CmdWord) : argHighField w = w.extractLsb' 16 16 :=
  BitVec.extractLsb'_extractLsb'_of_le (by decide)

theorem argLowField_eq (w : CmdWord) : argLowField w = w.extractLsb' 0 8 :=
  BitVec.extractLsb'_extractLsb'_of_le (by decide)

/-- A word matches a command's row exactly when it decodes to the command with the word's operands. -/
theorem matches_iff_decodeWord (i : Instr) (w : CmdWord) :
    (rowOf i).matches w = true ↔ decodeWord w = some (withOperands i w) :=
  ⟨decodeWord_of_matches, fun h => by
    have hrow := (matches_of_decodeWord h).1
    cases i <;> exact hrow⟩

theorem matches_iff_and (r : Row) (w : CmdWord) : r.matches w = true ↔ w &&& r.mask = r.pattern :=
  decide_eq_true_iff

/-- Settles O3: the rows of R64 with the operands of `withOperands`, read as bits of the word. -/
theorem commandsAreExactlyTheirRows : Obligations.CommandsAreExactlyTheirRows := by
  unfold Obligations.CommandsAreExactlyTheirRows
  intro w
  have hrow (i : Instr) : w &&& (rowOf i).mask = (rowOf i).pattern ↔
      decodeWord w = some (withOperands i w) :=
    (matches_iff_and _ w).symm.trans (matches_iff_decodeWord i w)
  have hmatch {i : Instr} (h : decodeWord w = some i) : w &&& (rowOf i).mask = (rowOf i).pattern :=
    (matches_iff_and _ w).1 (matches_of_decodeWord h).1
  rw [← neField_eq, ← symField_eq, ← argLowField_eq]
  exact ⟨hrow (.build false 0), hrow (.encode 0), hrow (.decode 0), hrow (.loadt 0 0), hrow (.readt 0),
    hrow .clrt, fun _ _ => hmatch, fun _ => hmatch, fun _ => hmatch, fun _ _ => hmatch, fun _ => hmatch⟩

/-! ## Illegal words (R65, R185) -/

/-- OP is one of the codes of R64, or one of those R65 lists. -/
theorem op_cases (op : BitVec 8) :
    op = 0x00#8 ∨ 0x07#8 ≤ op ∨ op = 0x01#8 ∨ op = 0x02#8 ∨ op = 0x03#8 ∨ op = 0x04#8 ∨ op = 0x05#8 ∨
      op = 0x06#8 := by
  bv_omega

/-- R65's list, in the fields of a word. -/
def InIllegalList (w : CmdWord) : Prop :=
  opField w = 0x00#8 ∨ 0x07#8 ≤ opField w ∨
    (opField w = 0x01#8 ∧ (flagsField w).extractLsb' 1 7 ≠ 0#7) ∨
    (0x02#8 ≤ opField w ∧ opField w ≤ 0x06#8 ∧ flagsField w ≠ 0#8) ∨
    (opField w = 0x04#8 ∧ argHighField w ≠ 0#16) ∨
    (opField w = 0x05#8 ∧ (argHighField w ≠ 0#16 ∨ argLowField w ≠ 0#8)) ∨
    (opField w = 0x06#8 ∧ argField w ≠ 0#32)

/-- A word lies in R65's list exactly when it matches no row, whichever its OP is. -/
theorem decodeWord_eq_none_iff_inIllegalList (w : CmdWord) :
    decodeWord w = none ↔ InIllegalList w := by
  rw [decodeWord_eq_none_iff, buildRow_iff, encodeRow_matches, decodeRow_matches, loadtRow_iff,
    readtRow_iff, clrtRow_matches, InIllegalList]
  rcases op_cases (opField w) with h | h | h | h | h | h | h | h
  · simp [h]
  · have hne {k : BitVec 8} (hk : k < 0x07#8) : opField w ≠ k := by bv_omega
    simp [h, hne]
  · simp [h]
  · simp [h]
  · simp [h]
  · simp [h, imp_iff_not_or]
  · simp [h, imp_iff_not_or]
  · simp [h, imp_iff_not_or]

end Sys2Proof

/-! SUPPORT. The answers (R65 to R69): the fields of a response word, the statuses of each command, and
that every word is answered. -/

namespace Sys2Proof.Machine

/-! ## Illegal words (R65, R185) -/

/-- Settles O4: R65's list is the complement of the rows of R64, and the step on an illegal word only
answers it. -/
theorem illegalWordsAreListedAndOnlyAnswered : Obligations.IllegalWordsAreListedAndOnlyAnswered := by
  unfold Obligations.IllegalWordsAreListedAndOnlyAnswered
  refine ⟨fun w => ?_, by decide, fun s w rest hseq hcmd hdecode => ?_⟩
  · simp only [← argHighField_eq, ← argLowField_eq]
    exact decodeWord_eq_none_iff_inIllegalList w
  · have hrsp : errRsp .illegalCommand 0 = 0x05000000000000000000#80 := by decide
    rw [step_illegal hseq hcmd hdecode, illegalWord, raise, hrsp, ← hseq]

/-! ## The fields of a response word (R68, R69) -/

theorem packRsp_toNat (st : BitVec 8) (n : BitVec 40) (info : BitVec 32) :
    (packRsp st n info).toNat = st.toNat * 2 ^ 72 + n.toNat * 2 ^ 32 + info.toNat := by
  rw [packRsp, BitVec.toNat_append, BitVec.toNat_append, ← Nat.shiftLeft_add_eq_or_of_lt info.isLt,
    ← Nat.shiftLeft_add_eq_or_of_lt n.isLt, Nat.shiftLeft_eq, Nat.shiftLeft_eq]
  omega

@[simp] theorem rspStatus_okRsp (n : Nat) : rspStatus (okRsp n) = 0x00#8 := rspStatus_packRsp _ _ _

@[simp] theorem rspStatus_errRsp (e : Error) (info : Nat) : rspStatus (errRsp e info) = e.status :=
  rspStatus_packRsp _ _ _

/-- Settles O6: the fields of a packed word are what was packed, and the number of items and INFO fit
theirs. -/
theorem responseWordsHoldTheirFields : Obligations.ResponseWordsHoldTheirFields := by
  unfold Obligations.ResponseWordsHoldTheirFields
  refine ⟨fun st n info => ⟨rspStatus_packRsp _ _ _, rspOutlen_packRsp _ _ _, rspInfo_packRsp _ _ _,
    packRsp_toNat _ _ _⟩, fun n hn => ⟨rspStatus_okRsp n, ?_, rspInfo_packRsp _ _ _⟩,
    fun e info hinfo => ⟨rspOutlen_packRsp _ _ _, ?_, ?_⟩⟩
  · calc (rspOutlen (okRsp n)).toNat = (BitVec.ofNat 40 n).toNat :=
          congrArg BitVec.toNat (rspOutlen_packRsp _ _ _)
      _ = n := Nat.mod_eq_of_lt hn
  · calc (rspInfo (errRsp e info)).toNat = (BitVec.ofNat 32 info).toNat :=
          congrArg BitVec.toNat (rspInfo_packRsp _ _ _)
      _ = info := Nat.mod_eq_of_lt hinfo
  · exact (rspStatus_errRsp e info).trans (by cases e <;> rfl)

/-- Settles O5: the worked words of R72 are evaluated. -/
theorem workedEncodingsDecodeAndEncode : Obligations.WorkedEncodingsDecodeAndEncode := by
  unfold Obligations.WorkedEncodingsDecodeAndEncode
  decide

/-! ## Which status a command answers (R69, R180) -/

/-- ENCODE fails only with MissingCodeError. -/
theorem encodeLoop_fail {t : CodeTable} {input : List Symbol} {i : Nat} {out : List Bit} {e : Error}
    {info : Nat} (h : encodeLoop t i out input = .fail e info) : e = .missingCode := by
  induction input generalizing i out with
  | nil => cases h
  | cons x input ih =>
    unfold encodeLoop at h
    split at h
    · exact ih h
    · cases h; rfl

/-- Phase 2 of DECODE fails only with TruncatedSequenceError. -/
theorem decodeLoop_fail {inv : InvMap} {k pos : Nat} {out : List Symbol} {rest : List Bit} {e : Error}
    {info : Nat} (h : decodeLoop inv k pos out rest = .fail e info) : e = .truncatedSequence := by
  induction k generalizing pos out rest with
  | zero =>
    unfold decodeLoop at h
    split at h
    · cases h
    · cases h; rfl
  | succ k ih =>
    unfold decodeLoop at h
    split at h
    · cases h
    · split at h
      · exact ih h
      · cases h; rfl

/-- DECODE fails with DuplicateCodeError from phase 1 or TruncatedSequenceError from phase 2. -/
theorem decodeMessage_fail {t : CodeTable} {bits : List Bit} {e : Error} {info : Nat}
    (h : decodeMessage t bits = .fail e info) : e = .duplicateCode ∨ e = .truncatedSequence := by
  unfold decodeMessage at h
  split at h
  · exact .inr (decodeLoop_fail h)
  · rename_i hinv
    cases h
    exact .inl (invLoop_fail hinv).1

/-- The errors a command can report (R180). -/
def errorsOf : Instr → List Error
  | .build _ _ => [.emptyInput]
  | .encode _ => [.missingCode]
  | .decode _ => [.duplicateCode, .truncatedSequence]
  | .loadt _ _ => []
  | .readt _ => []
  | .clrt => []

/-- A command answers OK or one of its errors. -/
theorem status_commandEffect (i : Instr) (t : CodeTable) (symbols : List Symbol) (bits : List Bit) :
    rspStatus (commandEffect i t symbols bits).rsp = 0x00#8 ∨
      ∃ e ∈ errorsOf i, rspStatus (commandEffect i t symbols bits).rsp = e.status := by
  cases i with
  | build ne count =>
    simp only [commandEffect]
    split_ifs
    · exact .inr ⟨.emptyInput, by simp [errorsOf], rspStatus_errRsp _ _⟩
    · exact .inl (rspStatus_okRsp _)
    · exact .inl (rspStatus_okRsp _)
  | encode count =>
    simp only [commandEffect]
    split
    · exact .inl (rspStatus_okRsp _)
    · rename_i e info h
      exact .inr ⟨e, by simp [errorsOf, encodeLoop_fail h], rspStatus_errRsp _ _⟩
  | decode count =>
    simp only [commandEffect]
    split
    · exact .inl (rspStatus_okRsp _)
    · rename_i e info h
      exact .inr ⟨e, by simpa [errorsOf] using decodeMessage_fail h, rspStatus_errRsp _ _⟩
  | loadt sym clen => exact .inl (rspStatus_okRsp _)
  | readt sym => exact .inl (rspStatus_okRsp _)
  | clrt => exact .inl (rspStatus_okRsp _)

/-- Settles O23: the one response of a command whose payload is there is that of its effect. -/
theorem statusesAreThoseOfTheirCommands : Obligations.StatusesAreThoseOfTheirCommands := by
  unfold Obligations.StatusesAreThoseOfTheirCommands
  intro i s t r hready hexec hrsp
  obtain rfl : (effectIn i s).put (takePayload i s) = t := by
    injection (exec_ready hready).symm.trans hexec
  obtain rfl : (effectIn i s).rsp = r := by simpa using hrsp
  have hstatus := status_commandEffect i s.ct (s.si.take (siNeed i)) (s.bi.take (biNeed i))
  rw [← effectIn] at hstatus
  cases i <;> simpa [errorsOf, Error.status] using hstatus

/-! ## Every word is answered (R67) -/

/-- Settles O17: a word's payload is there when HFM is ready, and the step on it, or on a command in
progress, ends with one response. -/
theorem everyCommandWordIsAnsweredOnce : Obligations.EveryCommandWordIsAnsweredOnce := by
  unfold Obligations.EveryCommandWordIsAnsweredOnce
  refine ⟨fun s w rest hseq hcmd hready => ?_, fun s i hseq hready => ?_⟩
  · have hpayload : ∀ i, decodeWord w = some i → payloadReady i s := by
      simpa only [CommandReady, hseq, hcmd] using hready
    cases hdecode : decodeWord w with
    | none => exact ⟨_, _, step_illegal hseq hcmd hdecode, rfl, rfl, rfl⟩
    | some i =>
      have hi : payloadReady i { s with cmd := rest } := hpayload i hdecode
      exact ⟨_, _, (step_legal hseq hcmd hdecode).trans (exec_ready hi), rfl, rfl, rfl⟩
  · have hi : payloadReady i { s with seq := .idle } := by
      simpa only [CommandReady, hseq] using hready
    exact ⟨_, _, (step_waiting hseq).trans (exec_ready hi), rfl, rfl, rfl⟩

/-- A command performs or waits. -/
theorem completes_exec (i : Instr) (s : State) : Completes (exec i s) := by
  by_cases h : payloadReady i s
  · exact ⟨_, exec_ready h⟩
  · exact ⟨_, exec_short h⟩

/-- Settles O19: a step waits, performs a command, or answers an illegal word. -/
theorem noStepFaultsOrRefuses : Obligations.NoStepFaultsOrRefuses := by
  unfold Obligations.NoStepFaultsOrRefuses
  refine ⟨fun s => ?_, completes_exec⟩
  unfold step
  cases fetch s with
  | nothing => exact ⟨_, rfl⟩
  | command i s' => exact completes_exec i s'
  | illegal s' => exact ⟨_, rfl⟩

end Sys2Proof.Machine

/-! SUPPORT. Commands sent with their payload (R70, R71): what a queue of them leaves, the order of
LDTBL's list, and the table its writes make. -/

namespace Sys2Proof.Machine

/-! ## What the host sends behind a ready command (R42, R208) -/

theorem commandReady_of_fetch_command {s s' : State} {i : Instr} (h : fetch s = .command i s')
    (hp : payloadReady i s') : CommandReady s := by
  rcases fetch_command h with ⟨hseq, rfl⟩ | ⟨w, rest, hseq, hcmd, hdecode, rfl⟩
  · simpa only [CommandReady, hseq] using hp
  · exact commandReady_of_decode hseq hcmd hdecode hp

theorem commandReady_of_fetch_illegal {s s' : State} (h : fetch s = .illegal s') : CommandReady s := by
  obtain ⟨w, rest, hseq, hcmd, hdecode, -⟩ := fetch_illegal_word h
  simp [CommandReady, hseq, hcmd, hdecode]

/-- Nothing the host does but reset makes a ready command wait. -/
theorem commandReady_hostMove {m : HostMove} {s : State} (hm : m ≠ .reset) (h : CommandReady s) :
    CommandReady (hostMove m s) := by
  cases hfetch : fetch s with
  | nothing => exact absurd h (not_commandReady_of_fetch_nothing hfetch)
  | command i s' =>
    exact commandReady_of_fetch_command (fetch_command_hostMove hm hfetch)
      (payloadReady_hostMove hm (payloadReady_of_fetch_command h hfetch))
  | illegal s' => exact commandReady_of_fetch_illegal (fetch_illegal_hostMove hm hfetch)

/-- A ready command stays ready, and its step commutes, when the host sends a line behind it. -/
theorem step_sendTransaction_behind {s t : State} (hready : CommandReady s) (hstep : step s = .next t)
    (tr : Transaction) :
    CommandReady (sendTransaction tr s) ∧ step (sendTransaction tr s) = .next (sendTransaction tr t) := by
  have hreadyBI := commandReady_hostMove (m := .sendBI tr.bits) (by simp) hready
  have hreadySI := commandReady_hostMove (m := .sendSI tr.symbols) (by simp) hreadyBI
  have hstepBI := step_hostMove (m := .sendBI tr.bits) trivial (.inl hready) hstep
  have hstepSI := step_hostMove (m := .sendSI tr.symbols) trivial (.inl hreadyBI) hstepBI
  exact ⟨commandReady_hostMove (by simp) hreadySI, step_hostMove trivial (.inl hreadySI) hstepSI⟩

theorem step_sendAll {s t : State} (hready : CommandReady s) (hstep : step s = .next t)
    (trs : List Transaction) : step (sendAll trs s) = .next (sendAll trs t) := by
  induction trs generalizing s t with
  | nil => exact hstep
  | cons tr trs ih =>
    obtain ⟨hready', hstep'⟩ := step_sendTransaction_behind hready hstep tr
    exact ih hready' hstep'

/-! ## A queue of commands with their payload (R50, R70) -/

/-- HFM waits for a command, and no item the host sent is left. -/
structure State.Waits (s : State) : Prop where
  seq : s.seq = .idle
  cmd : s.cmd = []
  si : s.si = []
  bi : s.bi = []

/-- A line is a command a word can hold, with exactly its payload. -/
structure Transaction.Complete (tr : Transaction) : Prop where
  instr : tr.instr.WellFormed
  symbols : tr.symbols.length = siNeed tr.instr
  bits : tr.bits.length = biNeed tr.instr

/-- The state with the effect of a line's command on the line's payload. -/
def Transaction.answer (s : State) (tr : Transaction) : State :=
  (commandEffect tr.instr s.ct tr.symbols tr.bits).put s

theorem State.Waits.answer {s : State} (hs : s.Waits) (tr : Transaction) :
    (Transaction.answer s tr).Waits :=
  ⟨rfl, hs.cmd, hs.si, hs.bi⟩

/-- One step takes a line sent to a waiting HFM off the channels and answers it. -/
theorem step_sendTransaction {s : State} (hs : s.Waits) {tr : Transaction} (htr : tr.Complete) :
    CommandReady (sendTransaction tr s) ∧
      step (sendTransaction tr s) = .next (Transaction.answer s tr) := by
  obtain ⟨hseq, hcmd, hsi, hbi⟩ := hs
  obtain ⟨hwf, hsymbols, hbits⟩ := htr
  have hword : (sendTransaction tr s).cmd = [encodeWord tr.instr] := by
    simp [sendTransaction, hostMove, hcmd]
  have hSI : (sendTransaction tr s).si = tr.symbols := by simp [sendTransaction, hostMove, hsi]
  have hBI : (sendTransaction tr s).bi = tr.bits := by simp [sendTransaction, hostMove, hbi]
  have hidle : (sendTransaction tr s).seq = .idle := hseq
  have hdecode := decodeOfEncodeIsIdentity tr.instr hwf
  have hready : payloadReady tr.instr (sendTransaction tr s) :=
    ⟨by rw [hSI, hsymbols], by rw [hBI, hbits]⟩
  have hready' : payloadReady tr.instr { sendTransaction tr s with cmd := [] } := hready
  refine ⟨commandReady_of_decode hidle hword hdecode hready, ?_⟩
  have heffect : effectIn tr.instr { sendTransaction tr s with cmd := [] } =
      commandEffect tr.instr s.ct tr.symbols tr.bits := by
    simp only [effectIn, hSI, hBI, ← hsymbols, ← hbits, List.take_length]
    rfl
  have htaken : takePayload tr.instr { sendTransaction tr s with cmd := [] } = s := by
    simp only [takePayload, hSI, hBI, ← hsymbols, ← hbits, List.drop_length]
    rw [← hcmd, ← hsi, ← hbi]
    rfl
  rw [step_legal hidle hword hdecode, exec_ready hready', heffect, htaken]
  rfl

/-- As many steps as there are lines answer a queue of them, one after the other. -/
theorem run_sendAll {trs : List Transaction} {s : State} (hs : s.Waits)
    (htrs : ∀ tr ∈ trs, tr.Complete) :
    core.run trs.length (sendAll trs s) = .next (trs.foldl Transaction.answer s) := by
  induction trs generalizing s with
  | nil => rfl
  | cons tr trs ih =>
    obtain ⟨hready, hstep⟩ := step_sendTransaction hs (htrs tr (by simp))
    exact (run_succ _ (step_sendAll hready hstep trs)).trans
      (ih (hs.answer tr) fun tr' h => htrs tr' (by simp [h]))

/-! ## The lines of LDTBL (R71) -/

theorem complete_clrtLine : clrtLine.Complete := ⟨rfl, rfl, rfl⟩

theorem complete_loadtLine {e : Symbol × Code} (h : e.2.length ≤ Config.maxLen) :
    (loadtLine e).Complete := ⟨decide_eq_true h, rfl, rfl⟩

theorem answer_clrtLine (s : State) :
    Transaction.answer s clrtLine = respond 0 { s with ct := CodeTable.empty } :=
  Effect.put_ok_table _ s

theorem answer_loadtLine (s : State) (e : Symbol × Code) :
    Transaction.answer s (loadtLine e) = respond 0 { s with ct := CodeTable.write s.ct e.1 e.2 } :=
  Effect.put_ok_table _ s

/-- LOADT lines write their entries one after the other, each with one response. -/
theorem foldl_answer_loadtLine (l : List (Symbol × Code)) {s : State} (hseq : s.seq = .idle) :
    (l.map loadtLine).foldl Transaction.answer s =
      { s with
        ct := l.foldl (fun t e => CodeTable.write t e.1 e.2) s.ct
        rsp := s.rsp ++ List.replicate l.length (okRsp 0) } := by
  induction l generalizing s with
  | nil => simp
  | cons e l ih =>
    rw [List.map_cons, List.foldl_cons, answer_loadtLine, ih rfl]
    simp [respond, hseq, List.replicate_succ]

/-! ## The order of LDTBL's list (R71) -/

theorem insertPair_perm (e : Symbol × Code) (l : List (Symbol × Code)) :
    (insertPair e l).Perm (e :: l) := by
  induction l with
  | nil => exact .refl _
  | cons x l ih =>
    unfold insertPair
    split
    · exact (ih.cons x).trans (.swap e x l)
    · exact .refl _

/-- Pairs put into their places in a list one after the other. -/
def insertPairs (pairs l : List (Symbol × Code)) : List (Symbol × Code) :=
  pairs.foldl (fun l e => insertPair e l) l

theorem ldtbl_eq (pairs : List (Symbol × Code)) :
    ldtbl pairs = clrtLine :: (insertPairs pairs []).map loadtLine := rfl

theorem insertPairs_perm (pairs l : List (Symbol × Code)) : (insertPairs pairs l).Perm (pairs ++ l) := by
  induction pairs generalizing l with
  | nil => exact .refl _
  | cons e pairs ih =>
    calc (insertPairs pairs (insertPair e l)).Perm (pairs ++ insertPair e l) := ih _
      List.Perm _ (pairs ++ e :: l) := (insertPair_perm e l).append_left pairs
      List.Perm _ (e :: pairs ++ l) := List.perm_middle

/-- LDTBL loads the listed pairs in another order. -/
theorem insertPairs_nil_perm (pairs : List (Symbol × Code)) : (insertPairs pairs []).Perm pairs := by
  simpa using insertPairs_perm pairs []

/-- The list rises by symbol, equal symbols allowed. -/
def Ascending (l : List (Symbol × Code)) : Prop := l.Pairwise fun a b => a.1 ≤ b.1

theorem ascending_insertPair {e : Symbol × Code} {l : List (Symbol × Code)} (h : Ascending l) :
    Ascending (insertPair e l) := by
  induction l with
  | nil => exact List.pairwise_singleton _ _
  | cons x l ih =>
    obtain ⟨hx, hl⟩ := List.pairwise_cons.1 h
    unfold insertPair
    split
    · rename_i hxe
      refine List.pairwise_cons.2 ⟨fun y hy => ?_, ih hl⟩
      rcases List.mem_cons.1 ((insertPair_perm e l).mem_iff.1 hy) with rfl | hy
      · exact hxe
      · exact hx y hy
    · rename_i hxe
      have hex : e.1 ≤ x.1 := (BitVec.le_total ..).resolve_left hxe
      refine List.pairwise_cons.2 ⟨fun y hy => ?_, h⟩
      rcases List.mem_cons.1 hy with rfl | hy
      · exact hex
      · exact BitVec.le_trans hex (hx y hy)

/-! ## The last pair of a symbol -/

theorem assocFind_append {κ ν : Type} [DecidableEq κ] (k : κ) (l m : List (κ × ν)) :
    assocFind k (l ++ m) = (assocFind k l).or (assocFind k m) := by
  induction l with
  | nil => rfl
  | cons e l ih =>
    obtain ⟨k', v⟩ := e
    by_cases hk : k' = k <;> simp [assocFind, hk, ih]

/-- The last pair of a symbol in a list. -/
def lastOf (s : Symbol) (l : List (Symbol × Code)) : Option Code := assocFind s l.reverse

@[simp] theorem lastOf_nil (s : Symbol) : lastOf s [] = none := rfl

theorem lastOf_cons (s : Symbol) (e : Symbol × Code) (l : List (Symbol × Code)) :
    lastOf s (e :: l) = (lastOf s l).or (if e.1 = s then some e.2 else none) := by
  rw [lastOf, List.reverse_cons, assocFind_append]
  rfl

theorem lastOf_eq_none_of_not_listed {s : Symbol} {l : List (Symbol × Code)} (h : ∀ e ∈ l, e.1 ≠ s) :
    lastOf s l = none :=
  assocFind_eq_none.2 fun e he => h e (List.mem_reverse.1 he)

/-- A pair put into its place in a rising list comes behind every pair of its symbol. -/
theorem lastOf_insertPair {l : List (Symbol × Code)} (h : Ascending l) (s : Symbol)
    (e : Symbol × Code) :
    lastOf s (insertPair e l) = (if e.1 = s then some e.2 else none).or (lastOf s l) := by
  induction l with
  | nil => simp [insertPair, lastOf_cons]
  | cons x l ih =>
    obtain ⟨hx, hl⟩ := List.pairwise_cons.1 h
    unfold insertPair
    split
    · rw [lastOf_cons, lastOf_cons, ih hl, Option.or_assoc]
    · rename_i hxe
      rw [lastOf_cons]
      by_cases hs : e.1 = s
      · have hnone : lastOf s (x :: l) = none := by
          refine lastOf_eq_none_of_not_listed fun y hy hys => hxe ?_
          rcases List.mem_cons.1 hy with rfl | hy
          · exact hs ▸ hys ▸ BitVec.le_refl _
          · exact hs ▸ hys ▸ hx y hy
        simp [hs, hnone]
      · simp [hs]

/-- Putting pairs into a rising list one by one keeps the later of two for one symbol the later. -/
theorem lastOf_insertPairs (pairs : List (Symbol × Code)) {l : List (Symbol × Code)}
    (h : Ascending l) (s : Symbol) :
    lastOf s (insertPairs pairs l) = (lastOf s pairs).or (lastOf s l) := by
  induction pairs generalizing l with
  | nil => rfl
  | cons e pairs ih =>
    calc lastOf s (insertPairs pairs (insertPair e l))
      _ = (lastOf s pairs).or (lastOf s (insertPair e l)) := ih (ascending_insertPair h)
      _ = (lastOf s (e :: pairs)).or (lastOf s l) := by
        rw [lastOf_insertPair h, lastOf_cons, Option.or_assoc]

/-- After the writes of a list an entry has the code of its last pair. -/
theorem read_foldl_write {l : List (Symbol × Code)} {t : CodeTable} (ht : CodeTable.wf t)
    (hl : ∀ e ∈ l, e.2.length ≤ Config.maxLen) (s : Symbol) :
    CodeTable.read (l.foldl (fun t e => CodeTable.write t e.1 e.2) t) s =
      (lastOf s l).getD (CodeTable.read t s) := by
  induction l generalizing t with
  | nil => rfl
  | cons e l ih =>
    rw [List.foldl_cons, ih (wf_write ht e.1 (hl e (by simp))) fun f hf => hl f (by simp [hf]),
      read_write ht, lastOf_cons]
    by_cases hs : e.1 = s
    · cases lastOf s l <;> simp [hs]
    · cases lastOf s l <;> simp [hs, Ne.symm hs]

/-! ## LDTBL (R71) -/

theorem complete_ldtbl {pairs : List (Symbol × Code)} (h : ∀ e ∈ pairs, e.2.length ≤ Config.maxLen) :
    ∀ tr ∈ ldtbl pairs, tr.Complete := by
  refine List.forall_mem_cons.2 ⟨complete_clrtLine, List.forall_mem_map.2 fun e he => ?_⟩
  exact complete_loadtLine (h e ((insertPairs_nil_perm pairs).mem_iff.1 he))

/-- LDTBL leaves the table of its list, with one response for CLRT and one for each pair. -/
theorem foldl_answer_ldtbl (pairs : List (Symbol × Code)) {s : State} (hseq : s.seq = .idle) :
    (ldtbl pairs).foldl Transaction.answer s =
      { s with
        ct := CodeTable.ofPairs (insertPairs pairs [])
        rsp := s.rsp ++ List.replicate (pairs.length + 1) (okRsp 0) } := by
  rw [ldtbl_eq, List.foldl_cons, answer_clrtLine, foldl_answer_loadtLine _ rfl,
    (insertPairs_nil_perm pairs).length_eq]
  simp [respond, hseq, List.replicate_succ, CodeTable.ofPairs]

/-- The table of LDTBL's list holds the last pair listed for each symbol. -/
theorem read_ofPairs_insertPairs {pairs : List (Symbol × Code)}
    (h : ∀ e ∈ pairs, e.2.length ≤ Config.maxLen) (s : Symbol) :
    CodeTable.read (CodeTable.ofPairs (insertPairs pairs [])) s = (lastOf s pairs).getD [] := by
  have hsorted : ∀ e ∈ insertPairs pairs [], e.2.length ≤ Config.maxLen :=
    fun e he => h e ((insertPairs_nil_perm pairs).mem_iff.1 he)
  rw [CodeTable.ofPairs, read_foldl_write wf_empty hsorted, lastOf_insertPairs pairs List.Pairwise.nil,
    lastOf_nil, Option.or_none, read_empty]

/-- Settles O57: the queue of LDTBL's lines is answered line by line, and the writes in its order leave
each entry with the last pair listed for it. -/
theorem ldtblLoadsExactlyTheList : Obligations.LdtblLoadsExactlyTheList := by
  unfold Obligations.LdtblLoadsExactlyTheList
  intro pairs s hpairs hseq hcmd hsi hbi
  have hanswer := foldl_answer_ldtbl pairs hseq
  rw [okRsp_zero] at hanswer
  exact ⟨_, (run_sendAll ⟨hseq, hcmd, hsi, hbi⟩ (complete_ldtbl hpairs)).trans
    (congrArg Host.Outcome.next hanswer), read_ofPairs_insertPairs hpairs⟩

end Sys2Proof.Machine

/-! SUPPORT. The symbol frequency counter and the node list (R103 to R108): what the counters and ORD
hold, and where the scan of `insert` puts an entry. -/

namespace Sys2Proof.Machine

/-! ## The symbol counter (R103) -/

@[simp] theorem countFrequencies_append_singleton (input : List Symbol) (s : Symbol) :
    countFrequencies (input ++ [s]) = (countFrequencies input).count s := by
  simp [countFrequencies]

/-- FREQ[x] is the number of occurrences of `x` in the payload. -/
theorem freqOf_countFrequencies (input : List Symbol) (x : Symbol) :
    (countFrequencies input).freqOf x = input.count x := by
  induction input using List.reverseRecOn with
  | nil => simp [countFrequencies]
  | append_singleton input s ih =>
    rw [countFrequencies_append_singleton, freqOf_count, List.count_append]
    by_cases hx : s = x
    · subst hx; simp [ih]
    · simp [ih, hx]

theorem mem_ord_iff {input : List Symbol} {x : Symbol} :
    x ∈ (countFrequencies input).ord ↔ x ∈ input := by
  rw [(ordListsCounted_countFrequencies input).mem_iff, freqOf_countFrequencies, ← List.count_pos_iff]
  omega

/-- The order of first occurrence in a payload. -/
def OccursFirst (input : List Symbol) (s t : Symbol) : Prop := input.idxOf s < input.idxOf t

/-- A longer payload keeps the order of first occurrence among symbols that occurred before. -/
theorem occursFirst_append {input more : List Symbol} {s t : Symbol} (hs : s ∈ input) (ht : t ∈ input) :
    OccursFirst (input ++ more) s t ↔ OccursFirst input s t := by
  rw [OccursFirst, OccursFirst, List.idxOf_append_of_mem hs, List.idxOf_append_of_mem ht]

/-- A symbol that occurred comes before one that is new. -/
theorem occursFirst_append_new {input more : List Symbol} {s t : Symbol} (hs : s ∈ input)
    (ht : t ∉ input) : OccursFirst (input ++ more) s t := by
  rw [OccursFirst, List.idxOf_append_of_mem hs, List.idxOf_append_of_notMem ht]
  have := List.idxOf_lt_length_of_mem hs
  omega

/-- ORD is in the order of first occurrence. -/
theorem ord_pairwise (input : List Symbol) :
    (countFrequencies input).ord.Pairwise (OccursFirst input) := by
  induction input using List.reverseRecOn with
  | nil => exact List.Pairwise.nil
  | append_singleton input s ih =>
    have hold : (countFrequencies input).ord.Pairwise (OccursFirst (input ++ [s])) :=
      ih.imp_of_mem fun hx hy h => (occursFirst_append (mem_ord_iff.1 hx) (mem_ord_iff.1 hy)).2 h
    rw [countFrequencies_append_singleton]
    by_cases hs : (countFrequencies input).freqOf s = 0
    · have hnew : s ∉ input := by rwa [freqOf_countFrequencies, List.count_eq_zero] at hs
      have hord : ((countFrequencies input).count s).ord = (countFrequencies input).ord ++ [s] := if_pos hs
      rw [hord, List.pairwise_append]
      refine ⟨hold, List.pairwise_singleton _ _, fun x hx y hy => ?_⟩
      rw [List.mem_singleton.1 hy]
      exact occursFirst_append_new (mem_ord_iff.1 hx) hnew
    · have hord : ((countFrequencies input).count s).ord = (countFrequencies input).ord := if_neg hs
      rwa [hord]

/-- Raising one counter raises the sum by one. -/
theorem sum_freq_count (b : BuildWork) (s : Symbol) :
    (b.count s).freq.toList.sum = b.freq.toList.sum + 1 := by
  have hlen : s.toNat < b.freq.toList.length := by simpa using s.isLt
  have hget : b.freq.toList[s.toNat] = b.freqOf s := by simp [BuildWork.freqOf]
  have hsplit := List.sum_take_add_sum_drop b.freq.toList s.toNat
  rw [List.drop_eq_getElem_cons hlen, List.sum_cons, hget] at hsplit
  rw [BuildWork.count, Vector.toList_set, List.sum_set, if_pos hlen]
  omega

theorem sum_freq_countFrequencies (input : List Symbol) :
    (countFrequencies input).freq.toList.sum = input.length := by
  induction input using List.reverseRecOn with
  | nil => simp [countFrequencies, BuildWork.init]
  | append_singleton input s ih =>
    rw [countFrequencies_append_singleton, sum_freq_count, ih, List.length_append, List.length_singleton]

/-- Settles O26: each conjunct is what the counter keeps from one symbol of the payload to the next. -/
theorem frequencyCountIsExact : Obligations.FrequencyCountIsExact := by
  unfold Obligations.FrequencyCountIsExact
  intro input
  obtain ⟨hnodup, hmem⟩ := ordListsCounted_countFrequencies input
  exact ⟨freqOf_countFrequencies input, hnodup, fun s => (hmem s).trans Nat.one_le_iff_ne_zero.symm,
    ord_pairwise input, sum_freq_countFrequencies input⟩

/-! ## The scan of `insert` (R108) -/

/-- The scan stops at the first strictly lighter entry. -/
theorem insertBefore_split {α : Type} (weight : α → Nat) (m : α) (l : List α) :
    ∃ i, i ≤ l.length ∧ insertBefore weight m l = l.take i ++ [m] ++ l.drop i ∧
      (∀ x ∈ l.take i, weight x ≥ weight m) ∧ ∀ x, l[i]? = some x → weight x < weight m := by
  induction l with
  | nil => exact ⟨0, by simp [insertBefore]⟩
  | cons y l ih =>
    by_cases hy : weight y ≥ weight m
    · obtain ⟨i, hi, hins, hbefore, hat⟩ := ih
      refine ⟨i + 1, by simpa using hi, ?_, ?_, by simpa using hat⟩
      · simp [insertBefore, hy, hins]
      · simpa [hy] using hbefore
    · refine ⟨0, Nat.zero_le _, by simp [insertBefore, hy], by simp, ?_⟩
      simpa using hy

/-- Settles O31: the scan's own description, and its keeping of the order. -/
theorem insertGoesBeforeTheFirstLighter : Obligations.InsertGoesBeforeTheFirstLighter := by
  unfold Obligations.InsertGoesBeforeTheFirstLighter
  exact fun m list => ⟨insertBefore_split Node.weight m list, insertBefore_sorted⟩

/-- Behind entries of at least its weight an entry goes to the end. -/
theorem insertBefore_eq_append {α : Type} {weight : α → Nat} {m : α} {l : List α}
    (h : ∀ x ∈ l, weight x ≥ weight m) : insertBefore weight m l = l ++ [m] := by
  induction l with
  | nil => rfl
  | cons y l ih => simp_all [insertBefore]

/-- Inserting entries that come in non-increasing order of weight appends them. -/
theorem foldl_insertBefore_eq_append {α : Type} {weight : α → Nat} {ms l : List α}
    (h : (l ++ ms).Pairwise fun a b => weight a ≥ weight b) :
    ms.foldl (fun l m => insertBefore weight m l) l = l ++ ms := by
  induction ms generalizing l with
  | nil => simp
  | cons m ms ih =>
    have hm : ∀ x ∈ l, weight x ≥ weight m := fun x hx =>
      (List.pairwise_append.1 h).2.2 x hx m List.mem_cons_self
    rw [List.foldl_cons, insertBefore_eq_append hm, ih (by simpa using h), List.append_assoc,
      List.singleton_append]

/-! ## PAIRS (R104) -/

/-- Heavier first, and of equal weights in the order `r`. -/
def HeavierFirst {α : Type} (weight : α → Nat) (r : α → α → Prop) (a b : α) : Prop :=
  weight a > weight b ∨ (weight a = weight b ∧ r a b)

/-- The scan is stable: it puts a later entry behind those of its own weight. -/
theorem insertBefore_heavierFirst {α : Type} {weight : α → Nat} {r : α → α → Prop} {m : α}
    {l : List α} (h : l.Pairwise (HeavierFirst weight r)) (hm : ∀ x ∈ l, r x m) :
    (insertBefore weight m l).Pairwise (HeavierFirst weight r) := by
  induction l with
  | nil => exact List.pairwise_singleton _ _
  | cons x l ih =>
    obtain ⟨hx, hl⟩ := List.pairwise_cons.1 h
    unfold insertBefore
    split
    · rename_i hge
      refine List.pairwise_cons.2 ⟨fun y hy => ?_, ih hl fun y hy => hm y (List.mem_cons_of_mem _ hy)⟩
      rcases mem_insertBefore.1 hy with rfl | hy
      · exact hge.lt_or_eq.imp_right fun heq => ⟨heq.symm, hm x List.mem_cons_self⟩
      · exact hx y hy
    · rename_i hlt
      refine List.pairwise_cons.2 ⟨fun y hy => .inl ?_, h⟩
      rcases List.mem_cons.1 hy with rfl | hy
      · omega
      · rcases hx y hy with hxy | ⟨hxy, -⟩ <;> omega

theorem foldl_insertBefore_heavierFirst {α : Type} {weight : α → Nat} {r : α → α → Prop}
    {ms l : List α} (hl : l.Pairwise (HeavierFirst weight r)) (hms : ms.Pairwise r) (h : ∀ x ∈ l, ∀ m ∈ ms, r x m) :
    (ms.foldl (fun l m => insertBefore weight m l) l).Pairwise (HeavierFirst weight r) := by
  induction ms generalizing l with
  | nil => exact hl
  | cons m ms ih =>
    obtain ⟨hm, hms⟩ := List.pairwise_cons.1 hms
    refine ih (insertBefore_heavierFirst hl fun x hx => h x hx m List.mem_cons_self) hms
      fun x hx y hy => ?_
    rcases mem_insertBefore.1 hx with rfl | hx
    · exact hm y hy
    · exact h x hx y (List.mem_cons_of_mem _ hy)

/-- PAIRS is in descending frequency, equal frequencies by first occurrence. -/
theorem orderPairs_pairwise (input : List Symbol) :
    (orderPairs (countFrequencies input)).Pairwise
      (HeavierFirst (countFrequencies input).freqOf (OccursFirst input)) :=
  foldl_insertBefore_heavierFirst List.Pairwise.nil (ord_pairwise input) (by simp)

/-- No two entries stand both ways round in the order of PAIRS. -/
theorem heavierFirst_asymm {weight : Symbol → Nat} {input : List Symbol} {s t : Symbol}
    (h : HeavierFirst weight (OccursFirst input) s t) :
    ¬ HeavierFirst weight (OccursFirst input) t s := by
  unfold HeavierFirst OccursFirst at *
  omega

/-- Settles O27: PAIRS is in the order, and an asymmetric order arranges a list in one way only. -/
theorem pairsAreInTheUniqueOrder : Obligations.PairsAreInTheUniqueOrder := by
  unfold Obligations.PairsAreInTheUniqueOrder
  intro input
  refine ⟨orderPairs_perm _, orderPairs_pairwise input, fun l hperm hl => ?_⟩
  exact List.Perm.eq_of_pairwise (fun _ _ _ _ hst hts => absurd hts (heavierFirst_asymm hst)) hl
    (orderPairs_pairwise input) (hperm.trans (orderPairs_perm _).symm)

/-! ## LIST (R105, R107) -/

/-- LIST starts in non-increasing order of weight. -/
theorem initialList_sorted (input : List Symbol) :
    (initialList (countFrequencies input)).Pairwise fun m n => m.weight ≥ n.weight := by
  refine List.pairwise_map.2 ((orderPairs_pairwise input).imp fun h => ?_)
  rcases h with h | ⟨h, -⟩
  · exact h.le
  · exact h.ge

/-- Settles O28: the leaves come in non-increasing order, so inserting each appends it. -/
theorem initialListIsTheSortedLeaves : Obligations.InitialListIsTheSortedLeaves := by
  unfold Obligations.InitialListIsTheSortedLeaves
  exact fun input =>
    ⟨rfl, initialList_sorted input,
      (foldl_insertBefore_eq_append (l := []) (initialList_sorted input)).symm⟩

@[simp] theorem removeTwoSmallest_append (rest : List Node) (l r : Node) :
    removeTwoSmallest (rest ++ [l, r]) = some (l, r, rest) := by
  simp [removeTwoSmallest]

/-- Settles O30: `l` stands before `r` in the list. -/
theorem removeTwoSmallestTakesTheLastTwo : Obligations.RemoveTwoSmallestTakesTheLastTwo := by
  unfold Obligations.RemoveTwoSmallestTakesTheLastTwo
  refine fun rest l r => ⟨removeTwoSmallest_append rest l r, fun h => ?_⟩
  simpa using (List.pairwise_append.1 h).2.1

end Sys2Proof.Machine

/-! SUPPORT. The Huffman tree builder (R109 to R113): the merge loop by its passes, and what the tree
over the symbols of a payload is. -/

namespace Sys2Proof.Machine

/-! ## The merge loop (R109, R110) -/

/-- A list of two or more entries ends in two. -/
theorem exists_eq_append_pair {α : Type} {list : List α} (h : 2 ≤ list.length) :
    ∃ rest l r, list = rest ++ [l, r] := by
  obtain ⟨l, r, hdrop⟩ := List.length_eq_two.1 (show (list.drop (list.length - 2)).length = 2 by
    rw [List.length_drop]; omega)
  exact ⟨list.take (list.length - 2), l, r, by rw [← hdrop, List.take_append_drop]⟩

@[simp] theorem mergeOnce_append (rest : List Node) (l r : Node) :
    mergeOnce (rest ++ [l, r]) = insertNode (Node.join l r) rest := by
  simp [mergeOnce]

/-- One pass shortens the list by one. -/
theorem mergeOnce_length {list : List Node} (h : 2 ≤ list.length) :
    (mergeOnce list).length = list.length - 1 := by
  obtain ⟨rest, l, r, rfl⟩ := exists_eq_append_pair h
  simp [insertNode]

theorem mergeLoop_succ {list : List Node} (h : 2 < list.length) (k : Nat) :
    mergeLoop (k + 1) list = mergeLoop k (mergeOnce list) := if_pos h

/-- At two entries the loop stops. -/
theorem mergeLoop_of_length_le {list : List Node} (h : list.length ≤ 2) (k : Nat) :
    mergeLoop k list = list := by
  cases k with
  | zero => rfl
  | succ k => exact if_neg (by omega)

/-- With as many passes as there are entries beyond two the loop ends with two entries. -/
theorem mergeLoop_length {list : List Node} {k : Nat} (h : list.length = k + 2) :
    (mergeLoop k list).length = 2 := by
  induction k generalizing list with
  | zero => exact h
  | succ k ih =>
    rw [mergeLoop_succ (by omega)]
    exact ih (by rw [mergeOnce_length (by omega)]; omega)

/-- More passes than that change nothing. -/
theorem mergeLoop_add {list : List Node} {k : Nat} (h : list.length = k + 2) (extra : Nat) :
    mergeLoop (k + extra) list = mergeLoop k list := by
  induction k generalizing list with
  | zero => rw [mergeLoop_of_length_le h.le, mergeLoop_of_length_le h.le]
  | succ k ih =>
    rw [Nat.add_right_comm, mergeLoop_succ (by omega), mergeLoop_succ (by omega)]
    exact ih (by rw [mergeOnce_length (by omega)]; omega)

/-- The loop of BUILD ends with two entries, after as many passes as there are entries beyond two. -/
theorem mergeLoop_self {list : List Node} (h : 2 ≤ list.length) :
    (mergeLoop (list.length - 2) list).length = 2 ∧
      mergeLoop list.length list = mergeLoop (list.length - 2) list := by
  have hlen : list.length = list.length - 2 + 2 := by omega
  refine ⟨mergeLoop_length hlen, ?_⟩
  calc mergeLoop list.length list = mergeLoop (list.length - 2 + 2) list := by rw [← hlen]
    _ = mergeLoop (list.length - 2) list := mergeLoop_add hlen 2

@[simp] theorem buildRoot_pair (l r : Node) : buildRoot [l, r] = some (Node.join l r) := by
  rw [buildRoot, mergeLoop_of_length_le (by simp), finalRoot]

/-- The tree over a list of more than two entries is the tree over the list one pass later. -/
theorem buildRoot_mergeOnce {list : List Node} (h : 2 < list.length) :
    buildRoot list = buildRoot (mergeOnce list) := by
  obtain ⟨k, hk⟩ : ∃ k, list.length = k + 1 := ⟨list.length - 1, by omega⟩
  rw [buildRoot, buildRoot, mergeOnce_length h.le, hk, mergeLoop_succ h, Nat.add_sub_cancel]

/-- Settles O32: the passes one by one. -/
theorem mergeLoopBuildsTheRoot : Obligations.MergeLoopBuildsTheRoot := by
  unfold Obligations.MergeLoopBuildsTheRoot
  refine ⟨fun rest l r hrest => ?_, buildRoot_pair, fun list => mergeLoop_self⟩
  have hlen : 2 < (rest ++ [l, r]).length := by
    have := List.length_pos_iff.2 hrest
    simpa
  exact ⟨mergeOnce_append rest l r, mergeOnce_length hlen.le, buildRoot_mergeOnce hlen⟩

/-! ## What the passes keep -/

/-- What every pass keeps the loop keeps. -/
theorem mergeLoop_induction {P : List Node → Prop}
    (pass : ∀ rest l r, P (rest ++ [l, r]) → P (insertNode (Node.join l r) rest)) (k : Nat)
    {list : List Node} (h : P list) : P (mergeLoop k list) := by
  induction k generalizing list with
  | zero => exact h
  | succ k ih =>
    by_cases hlen : 2 < list.length
    · rw [mergeLoop_succ hlen]
      obtain ⟨rest, l, r, rfl⟩ := exists_eq_append_pair hlen.le
      exact ih (mergeOnce_append rest l r ▸ pass rest l r h)
    · rwa [mergeLoop_of_length_le (by omega)]

/-- A root joins two entries, and what every pass keeps holds of these. -/
theorem buildRoot_induction {P : List Node → Prop}
    (pass : ∀ rest l r, P (rest ++ [l, r]) → P (insertNode (Node.join l r) rest)) {list : List Node}
    {root : Node} (h : P list) (hroot : buildRoot list = some root) :
    ∃ l r, P [l, r] ∧ root = Node.join l r := by
  unfold buildRoot finalRoot at hroot
  split at hroot
  · rename_i l r hlr
    cases hroot
    exact ⟨l, r, hlr ▸ mergeLoop_induction pass _ h, rfl⟩
  · cases hroot

/-- Two entries or more have a tree. -/
theorem exists_buildRoot {list : List Node} (h : 2 ≤ list.length) :
    ∃ root, buildRoot list = some root := by
  obtain ⟨hlen, hloop⟩ := mergeLoop_self h
  obtain ⟨l, r, hlr⟩ := List.length_eq_two.1 hlen
  exact ⟨Node.join l r, by rw [buildRoot, hloop, hlr, finalRoot]⟩

/-! ## The tree of a payload (R112) -/

@[simp] theorem initialList_length (b : BuildWork) : (initialList b).length = b.ord.length := by
  rw [initialList, List.length_map, (orderPairs_perm b).length_eq]

/-- The leaves of the tree are those of PAIRS. -/
theorem leaves_buildRoot_initialList {b : BuildWork} {root : Node}
    (h : buildRoot (initialList b) = some root) :
    root.leaves.Perm ((orderPairs b).map fun s => (s, b.freqOf s)) :=
  listLeaves_initialList b ▸ leaves_buildRoot h

theorem leaves_buildRoot_symbols {b : BuildWork} {root : Node}
    (h : buildRoot (initialList b) = some root) : (root.leaves.map Prod.fst).Perm b.ord := by
  have := (leaves_buildRoot_initialList h).map Prod.fst
  rw [List.map_map] at this
  exact (this.trans (.of_eq (List.map_id _))).trans (orderPairs_perm b)

theorem leaves_buildRoot_length {b : BuildWork} {root : Node}
    (h : buildRoot (initialList b) = some root) : root.leaves.length = b.ord.length := by
  simpa using (leaves_buildRoot_symbols h).length_eq

/-- The root has two children. -/
theorem buildRoot_eq_join {list : List Node} {root : Node} (h : buildRoot list = some root) :
    ∃ l r, root = Node.join l r := by
  obtain ⟨l, r, -, hroot⟩ := buildRoot_induction (P := fun _ => True) (fun _ _ _ _ => trivial) trivial h
  exact ⟨l, r, hroot⟩

/-- The codes of two or more entries are those of their tree. -/
theorem codesOf_eq_deriveCodes {list : List Node} {root : Node} (h : buildRoot list = some root) :
    codesOf list = deriveCodes root [] := by
  unfold codesOf
  split
  · simp [buildRoot, mergeLoop, finalRoot] at h
  · rw [h]

/-- Every code of a tree with two or more leaves has a bit. -/
theorem one_le_length_of_mem_deriveCodes_join {l r : Node} {e : Symbol × Code}
    (h : e ∈ deriveCodes (Node.join l r) []) : 1 ≤ e.2.length := by
  rcases List.mem_append.1 h with h | h <;> exact (deriveCodes_length h).1

/-- Settles O33: the tree exists, has the leaves of PAIRS, and bounds the codes by its Internal nodes. -/
theorem treeHasTheCountedNodes : Obligations.TreeHasTheCountedNodes := by
  unfold Obligations.TreeHasTheCountedNodes
  intro input
  have hmax : (countFrequencies input).ord.length ≤ 256 := ord_length_le input
  refine ⟨hmax, fun hn => ?_⟩
  have hlist : 2 ≤ (initialList (countFrequencies input)).length := by rwa [initialList_length]
  have hpasses := (mergeLoop_self hlist).1
  rw [initialList_length] at hpasses
  obtain ⟨root, hroot⟩ := exists_buildRoot hlist
  have hleaves := leaves_buildRoot_length hroot
  have hnodes := leaves_length root
  refine ⟨hpasses, root, hroot, leaves_buildRoot_initialList hroot, hleaves, by omega,
    show _ ≤ 511 by omega, fun e he => ?_⟩
  rw [codesOf_eq_deriveCodes hroot] at he
  have hbound := (deriveCodes_length he).2
  rw [List.length_nil] at hbound
  obtain ⟨l, r, rfl⟩ := buildRoot_eq_join hroot
  exact ⟨one_le_length_of_mem_deriveCodes_join he, by omega⟩

/-! ## Walks (R111) -/

@[simp] theorem walk_nil (n : Node) : n.walk [] = some n := by cases n <;> rfl

theorem walk_append (n : Node) (p q : List Bit) : n.walk (p ++ q) = (n.walk p).bind fun m => m.walk q := by
  induction p generalizing n with
  | nil => simp
  | cons b p ih =>
    cases n with
    | leaf s w => rfl
    | internal w l r => cases b <;> exact ih _

/-- What holds of a node and passes from an Internal node to its children holds at the end of a walk. -/
theorem walk_induction {P : Node → Prop} (left : ∀ w l r, P (.internal w l r) → P l)
    (right : ∀ w l r, P (.internal w l r) → P r) {n m : Node} {p : List Bit} (h : P n)
    (hp : n.walk p = some m) : P m := by
  induction p generalizing n with
  | nil => rw [walk_nil] at hp; cases hp; exact h
  | cons b p ih =>
    cases n with
    | leaf s w => cases hp
    | internal w l r =>
      cases b with
      | false => exact ih (left w l r h) hp
      | true => exact ih (right w l r h) hp

/-- The leaves under a node of a tree are leaves of the tree, in their order. -/
theorem leaves_walk {n m : Node} {p : List Bit} (hp : n.walk p = some m) :
    m.leaves.Sublist n.leaves :=
  walk_induction (P := fun k => k.leaves.Sublist n.leaves)
    (fun _ l r h => (List.sublist_append_left l.leaves r.leaves).trans h)
    (fun _ l r h => (List.sublist_append_right l.leaves r.leaves).trans h) (List.Sublist.refl _) hp

/-! ## Weights (R28, R113) -/

theorem summed_walk {n m : Node} {p : List Bit} (h : n.summed) (hp : n.walk p = some m) : m.summed :=
  walk_induction (fun _ _ _ h => h.2.1) (fun _ _ _ h => h.2.2) h hp

/-- A node weighs what its leaves weigh together. -/
theorem weight_eq_sum_leaves {n : Node} (h : n.summed) : n.weight = (n.leaves.map Prod.snd).sum := by
  induction n with
  | leaf s w => simp [Node.leaves]
  | internal w l r ihl ihr =>
    obtain ⟨hw, hl, hr⟩ := h
    rw [Node.leaves, List.map_append, List.sum_append, ← ihl hl, ← ihr hr]
    exact hw

/-- No node of a tree is heavier than its root. -/
theorem weight_walk_le {n m : Node} {p : List Bit} (h : n.summed) (hp : n.walk p = some m) :
    m.weight ≤ n.weight := by
  rw [weight_eq_sum_leaves h, weight_eq_sum_leaves (summed_walk h hp)]
  exact ((leaves_walk hp).map Prod.snd).sum_le_sum fun _ _ => Nat.zero_le _

theorem summed_buildRoot {list : List Node} {root : Node} (h : ∀ n ∈ list, n.summed)
    (hroot : buildRoot list = some root) : root.summed := by
  have pass (rest : List Node) (l r : Node) (h : ∀ n ∈ rest ++ [l, r], n.summed) :
      ∀ n ∈ insertNode (Node.join l r) rest, n.summed := by
    intro n hn
    rcases mem_insertBefore.1 hn with rfl | hn
    · exact ⟨rfl, h l (by simp), h r (by simp)⟩
    · exact h n (List.mem_append_left _ hn)
  obtain ⟨l, r, hlr, rfl⟩ := buildRoot_induction (P := fun list => ∀ n ∈ list, n.summed) pass h hroot
  exact ⟨rfl, hlr l (by simp), hlr r (by simp)⟩

theorem summed_initialList (b : BuildWork) : ∀ n ∈ initialList b, n.summed := by
  intro n hn
  obtain ⟨s, -, rfl⟩ := List.mem_map.1 hn
  trivial

theorem countP_mem_cons {x : Symbol} {l : List Symbol} (hx : x ∉ l) (input : List Symbol) :
    input.countP (fun s => decide (s ∈ x :: l)) =
      input.count x + input.countP fun s => decide (s ∈ l) := by
  induction input with
  | nil => rfl
  | cons y input ih =>
    rw [List.countP_cons, List.countP_cons, List.count_cons, ih]
    by_cases hy : y = x
    · subst hy; simp [hx]; omega
    · simp [hy]; omega

/-- The number of payload symbols from a list of distinct symbols is the sum of their counts. -/
theorem countP_mem_eq_sum_count {l : List Symbol} (hl : l.Nodup) (input : List Symbol) :
    input.countP (fun s => decide (s ∈ l)) = (l.map input.count).sum := by
  induction l with
  | nil => simp
  | cons x l ih =>
    obtain ⟨hx, hl⟩ := List.nodup_cons.1 hl
    rw [countP_mem_cons hx, ih hl, List.map_cons, List.sum_cons]

section Tree

variable {input : List Symbol} {root : Node}
  (hroot : buildRoot (initialList (countFrequencies input)) = some root)
include hroot

/-- A leaf of the tree holds a symbol of the payload with its number of occurrences. -/
theorem weight_leaf_buildRoot {e : Symbol × Nat} (he : e ∈ root.leaves) :
    e.1 ∈ input ∧ e.2 = input.count e.1 := by
  obtain ⟨s, hs, rfl⟩ := List.mem_map.1 ((leaves_buildRoot_initialList hroot).mem_iff.1 he)
  exact ⟨mem_ord_iff.1 ((orderPairs_perm _).mem_iff.1 hs), freqOf_countFrequencies input s⟩

/-- The leaves of the tree hold distinct symbols. -/
theorem nodup_symbols_buildRoot : (root.leaves.map Prod.fst).Nodup :=
  (leaves_buildRoot_symbols hroot).nodup_iff.2 (ordListsCounted_countFrequencies input).nodup

/-- The leaves of the tree hold the symbols of the payload. -/
theorem mem_symbols_buildRoot {s : Symbol} : s ∈ root.leaves.map Prod.fst ↔ s ∈ input :=
  (leaves_buildRoot_symbols hroot).mem_iff.trans mem_ord_iff

theorem summed_buildRoot_initialList : root.summed := summed_buildRoot (summed_initialList _) hroot

/-- A node weighs as many payload symbols as have their leaves under it. -/
theorem weight_walk_buildRoot {p : List Bit} {m : Node} (hp : root.walk p = some m) :
    m.weight = input.countP fun s => decide (s ∈ m.leaves.map Prod.fst) := by
  have hsub := leaves_walk hp
  have hnodup : (m.leaves.map Prod.fst).Nodup := (nodup_symbols_buildRoot hroot).sublist (hsub.map _)
  have hcounts : m.leaves.map Prod.snd = (m.leaves.map Prod.fst).map input.count := by
    rw [List.map_map]
    exact List.map_congr_left fun e he => (weight_leaf_buildRoot hroot (hsub.subset he)).2
  rw [weight_eq_sum_leaves (summed_walk (summed_buildRoot_initialList hroot) hp), hcounts,
    countP_mem_eq_sum_count hnodup]

end Tree

/-- Settles O34: the leaves under a node have distinct symbols, and weigh as often as these occur. -/
theorem nodeWeightsCountThePayload : Obligations.NodeWeightsCountThePayload := by
  unfold Obligations.NodeWeightsCountThePayload
  intro input root hroot
  refine ⟨summed_buildRoot_initialList hroot, ?_, fun p m hp => ⟨weight_walk_buildRoot hroot hp, ?_⟩⟩
  · rw [weight_walk_buildRoot hroot (walk_nil root), List.countP_eq_length]
    exact fun s hs => decide_eq_true ((mem_symbols_buildRoot hroot).2 hs)
  · rw [weight_walk_buildRoot hroot hp]
    exact List.countP_le_length

end Sys2Proof.Machine

/-! SUPPORT. The code-table deriver and the command BUILD (R100, R102, R106, R111, R114, R115). -/

namespace Sys2Proof.Machine

/-! ## The deriver (R111) -/

/-- Settles O35: a path to a leaf is a step to a child and a path from there. -/
theorem derivedCodesAreLeafPaths : Obligations.DerivedCodesAreLeafPaths := by
  unfold Obligations.DerivedCodesAreLeafPaths
  intro n acc s c
  induction n generalizing acc with
  | leaf s' w =>
    rw [deriveCodes, List.mem_singleton, Prod.mk.injEq]
    constructor
    · rintro ⟨rfl, rfl⟩
      exact ⟨[], w, (List.append_nil _).symm, rfl⟩
    · rintro ⟨p, w', rfl, hp⟩
      cases p with
      | nil => cases hp; simp
      | cons b p => cases hp
  | internal w l r ihl ihr =>
    rw [deriveCodes, List.mem_append, ihl, ihr]
    constructor
    · rintro (⟨p, w', rfl, hp⟩ | ⟨p, w', rfl, hp⟩)
      · exact ⟨false :: p, w', by simp, hp⟩
      · exact ⟨true :: p, w', by simp, hp⟩
    · rintro ⟨p, w', rfl, hp⟩
      cases p with
      | nil => cases hp
      | cons b p =>
        cases b with
        | false => exact .inl ⟨p, w', by simp, hp⟩
        | true => exact .inr ⟨p, w', by simp, hp⟩

/-- The code the deriver gives a symbol is the path from the root to its leaf. -/
theorem mem_deriveCodes {n : Node} {s : Symbol} {c : Code} :
    (s, c) ∈ deriveCodes n [] ↔ ∃ w, n.walk c = some (.leaf s w) := by
  rw [derivedCodesAreLeafPaths n [] s c]
  simp

/-- No path to a leaf goes on to another leaf. -/
theorem eq_of_walk_prefix {n : Node} {p q : List Bit} {s t : Symbol} {v w : Nat}
    (hp : n.walk p = some (.leaf s v)) (hq : n.walk q = some (.leaf t w)) (h : p <+: q) : s = t := by
  obtain ⟨tail, rfl⟩ := h
  rw [walk_append, hp, Option.bind_some] at hq
  cases tail with
  | nil => cases hq; rfl
  | cons b tail => cases hq

/-! ## The codes of a payload (R106, R115) -/

/-- One symbol has the code "0" without a tree. -/
theorem codesOf_of_ord_singleton {b : BuildWork} {s : Symbol} (h : b.ord = [s]) :
    codesOf (initialList b) = [(s, [false])] := by
  have hpairs : orderPairs b = [s] := List.perm_singleton.1 (h ▸ orderPairs_perm b)
  rw [initialList, hpairs]
  rfl

/-- T of R100: no codes without symbols, the code "0" for one, and else the codes of the tree. -/
theorem codesOf_cases (b : BuildWork) :
    (b.ord = [] ∧ codesOf (initialList b) = []) ∨
      (∃ s, b.ord = [s] ∧ codesOf (initialList b) = [(s, [false])]) ∨
      ∃ root, buildRoot (initialList b) = some root ∧ codesOf (initialList b) = deriveCodes root [] := by
  match hord : b.ord with
  | [] =>
    have hpairs : orderPairs b = [] := List.perm_nil.1 (hord ▸ orderPairs_perm b)
    exact .inl ⟨rfl, by rw [initialList, hpairs]; rfl⟩
  | [s] => exact .inr (.inl ⟨s, rfl, codesOf_of_ord_singleton hord⟩)
  | s :: t :: ord =>
    obtain ⟨root, hroot⟩ := exists_buildRoot (list := initialList b) (by simp [hord])
    exact .inr (.inr ⟨root, hroot, codesOf_eq_deriveCodes hroot⟩)

/-- Every symbol of ORD gets one code. -/
theorem codesOf_symbols_perm (b : BuildWork) :
    ((codesOf (initialList b)).map Prod.fst).Perm b.ord := by
  rcases codesOf_cases b with ⟨hord, hcodes⟩ | ⟨s, hord, hcodes⟩ | ⟨root, hroot, hcodes⟩
  · simp [hord, hcodes]
  · simp [hord, hcodes]
  · rw [hcodes, deriveCodes_symbols]
    exact leaves_buildRoot_symbols hroot

/-- Every code has a bit. -/
theorem codesOf_ne_nil {b : BuildWork} {e : Symbol × Code} (he : e ∈ codesOf (initialList b)) :
    e.2 ≠ [] := by
  rcases codesOf_cases b with ⟨-, hcodes⟩ | ⟨s, -, hcodes⟩ | ⟨root, hroot, hcodes⟩
  · simp [hcodes] at he
  · rw [hcodes, List.mem_singleton] at he
    simp [he]
  · obtain ⟨l, r, rfl⟩ := buildRoot_eq_join hroot
    exact List.ne_nil_of_length_pos (one_le_length_of_mem_deriveCodes_join (hcodes ▸ he))

/-- No code begins another symbol's code. -/
theorem codesOf_prefix {b : BuildWork} {e f : Symbol × Code} (he : e ∈ codesOf (initialList b))
    (hf : f ∈ codesOf (initialList b)) (h : e.2 <+: f.2) : e.1 = f.1 := by
  rcases codesOf_cases b with ⟨-, hcodes⟩ | ⟨s, -, hcodes⟩ | ⟨root, -, hcodes⟩
  · simp [hcodes] at he
  · rw [hcodes, List.mem_singleton] at he hf
    rw [he, hf]
  · rw [hcodes] at he hf
    obtain ⟨v, hv⟩ := mem_deriveCodes.1 he
    obtain ⟨w, hw⟩ := mem_deriveCodes.1 hf
    exact eq_of_walk_prefix hv hw h

/-! ## The table of a payload (R114) -/

theorem mem_codesOf_symbols {input : List Symbol} {s : Symbol} :
    (∃ e ∈ codesOf (initialList (countFrequencies input)), e.1 = s) ↔ s ∈ input := by
  rw [← mem_ord_iff, ← (codesOf_symbols_perm _).mem_iff, List.mem_map]

theorem read_buildTable (input : List Symbol) (s : Symbol) :
    CodeTable.read (buildTable input) s =
      (assocFind s (codesOf (initialList (countFrequencies input)))).getD [] :=
  read_ofPairs (fun _ => codesOf_length_le)
    ((codesOf_symbols_perm _).nodup_iff.2 (ordListsCounted_countFrequencies input).nodup) s

/-- A symbol outside the payload is absent. -/
theorem read_buildTable_of_not_mem {input : List Symbol} {s : Symbol} (h : s ∉ input) :
    CodeTable.read (buildTable input) s = [] := by
  have hnone : assocFind s (codesOf (initialList (countFrequencies input))) = none :=
    assocFind_eq_none.2 fun e he hes => h (mem_codesOf_symbols.1 ⟨e, he, hes⟩)
  rw [read_buildTable, hnone, Option.getD_none]

/-- A symbol of the payload has the code derived for it. -/
theorem read_buildTable_mem_codesOf {input : List Symbol} {s : Symbol} (h : s ∈ input) :
    (s, CodeTable.read (buildTable input) s) ∈ codesOf (initialList (countFrequencies input)) := by
  rw [read_buildTable]
  cases hfind : assocFind s (codesOf (initialList (countFrequencies input))) with
  | some c => exact mem_of_assocFind hfind
  | none =>
    obtain ⟨e, he, hes⟩ := mem_codesOf_symbols.2 h
    exact absurd hes (assocFind_eq_none.1 hfind e he)

/-- The present entries are those of the payload's symbols. -/
theorem read_buildTable_ne_nil_iff {input : List Symbol} {s : Symbol} :
    CodeTable.read (buildTable input) s ≠ [] ↔ s ∈ input := by
  refine ⟨fun h => ?_, fun h => codesOf_ne_nil (read_buildTable_mem_codesOf h)⟩
  by_contra hs
  exact h (read_buildTable_of_not_mem hs)

/-- In the table of a payload no code begins another symbol's code. -/
theorem prefixFree_buildTable (input : List Symbol) : PrefixFree (buildTable input) :=
  fun _ _ hab ha hb h => hab <|
    codesOf_prefix (read_buildTable_mem_codesOf (read_buildTable_ne_nil_iff.1 ha))
      (read_buildTable_mem_codesOf (read_buildTable_ne_nil_iff.1 hb)) h

/-! ## The command (R100, R102) -/

/-- BUILD of at least one symbol, with NE or without: the whole next state. -/
theorem exec_build_pos (ne : Bool) {count : Nat} {s : State} (hcount : 1 ≤ count)
    (hready : count ≤ s.si.length) :
    exec (.build ne count) s =
      .next { s with
        si := s.si.drop count, ct := buildTable (s.si.take count)
        rsp := s.rsp ++ [0x00000000000000000000#80], seq := .idle } := by
  rw [exec_build_ready hready, buildAct, if_neg (by omega), respond, okRsp_zero]

/-- Settles O25: the table is that of the payload's codes. -/
theorem buildReplacesTheWholeTable : Obligations.BuildReplacesTheWholeTable := by
  unfold Obligations.BuildReplacesTheWholeTable
  intro ne count s hcount hready
  exact ⟨_, exec_build_pos ne hcount hready,
    fun _ h => ⟨read_buildTable_ne_nil_iff.2 h, read_buildTable_mem_codesOf h⟩,
    fun _ => read_buildTable_of_not_mem⟩

/-- Settles O36: the codes of a payload are paths to the leaves of one tree. -/
theorem builtTablesArePrefixFree : Obligations.BuiltTablesArePrefixFree := by
  unfold Obligations.BuiltTablesArePrefixFree
  intro ne count s hcount hready
  exact ⟨_, exec_build_pos ne hcount hready, prefixFree_buildTable _,
    fun _ => read_buildTable_ne_nil_iff⟩

/-- A payload of one repeated symbol has the single code "0". -/
theorem codesOf_replicate {count : Nat} (sym : Symbol) (hcount : 1 ≤ count) :
    codesOf (initialList (countFrequencies (List.replicate count sym))) = [(sym, [false])] := by
  have hmem (x : Symbol) : x ∈ (countFrequencies (List.replicate count sym)).ord ↔ x = sym := by
    rw [mem_ord_iff, List.mem_replicate]
    exact and_iff_right (by omega)
  exact codesOf_of_ord_singleton <| List.perm_singleton.1 <|
    (List.perm_ext_iff_of_nodup (ordListsCounted_countFrequencies _).nodup
      (List.nodup_singleton sym)).2 fun x => (hmem x).trans List.mem_singleton.symm

/-- Settles O29: ORD holds the one symbol. -/
theorem oneDistinctSymbolGetsZero : Obligations.OneDistinctSymbolGetsZero := by
  unfold Obligations.OneDistinctSymbolGetsZero
  intro ne sym count s hcount hready hinput
  have hcodes := codesOf_replicate sym hcount
  refine ⟨_, exec_build_pos ne hcount hready, ?_, fun x hx => ?_⟩
  · have hsym : sym ∈ List.replicate count sym := List.mem_replicate.2 ⟨by omega, rfl⟩
    have hread := read_buildTable_mem_codesOf hsym
    rw [hcodes, List.mem_singleton] at hread
    rw [hinput]
    exact congrArg Prod.snd hread
  · refine read_buildTable_of_not_mem fun hmem => hx ?_
    rw [hinput] at hmem
    exact List.eq_of_mem_replicate hmem

/-- Settles O24: the three ways BUILD can end. -/
theorem buildOfEmptyPayload : Obligations.BuildOfEmptyPayload := by
  unfold Obligations.BuildOfEmptyPayload
  refine ⟨fun s => ⟨_, exec_build_ready (Nat.zero_le _), read_empty, ?_⟩, fun s => ?_,
    fun count s hcount hready => ⟨_, exec_build_pos true hcount hready,
      exec_build_pos false hcount hready, rfl⟩⟩
  · rw [← okRsp_zero]
    rfl
  · have hrsp : errRsp .emptyInput 0 = 0x01000000000000000000#80 := by decide
    rw [exec_build_ready (Nat.zero_le _), ← hrsp]
    rfl

/-- Settles O37: the table depends on the payload alone. -/
theorem buildIgnoresThePreviousTable : Obligations.BuildIgnoresThePreviousTable := by
  unfold Obligations.BuildIgnoresThePreviousTable
  intro ne ne' count s s' hcount hready hinput hready'
  exact ⟨_, _, exec_build_pos ne hcount hready, exec_build_pos ne' hcount hready',
    congrArg buildTable hinput⟩

end Sys2Proof.Machine

/-! SUPPORT. The lengths of the codes (R116): the merges of BUILD come in rising order of weight, so a
heavier node of the tree lies no deeper than a lighter one. -/

namespace Sys2Proof.Machine

/-! ## The merges of a tree -/

/-- The children of every Internal node: the pairs that were merged. -/
def Node.merges : Node → List (Node × Node)
  | .leaf _ _ => []
  | .internal _ l r => (l, r) :: (l.merges ++ r.merges)

/-- Neither node of the first pair is heavier than one of the second. -/
def NoHeavier (a b : Node × Node) : Prop :=
  max a.1.weight a.2.weight ≤ min b.1.weight b.2.weight

/-- Of two merges, one took no heavier nodes than the other. -/
def Comparable (a b : Node × Node) : Prop := NoHeavier a b ∨ NoHeavier b a

theorem Comparable.symm {a b : Node × Node} (h : Comparable a b) : Comparable b a := Or.symm h

/-! ## The merges under a node list -/

/-- The merges made so far. -/
def listMerges (list : List Node) : List (Node × Node) := list.flatMap Node.merges

/-- A pass adds its merge. -/
theorem listMerges_insertNode_join (rest : List Node) (l r : Node) :
    (listMerges (insertNode (Node.join l r) rest)).Perm ((l, r) :: listMerges (rest ++ [l, r])) :=
  calc (listMerges (insertNode (Node.join l r) rest)).Perm (listMerges (Node.join l r :: rest)) :=
        (insertBefore_perm _ _ rest).flatMap_right _
    List.Perm _ ((l, r) :: listMerges (rest ++ [l, r])) := by
      simpa [listMerges, Node.join, Node.merges] using
        List.perm_append_comm (l₁ := l.merges ++ r.merges)

/-- What the passes keep: the list is in order, no merge took a node heavier than one now listed, and
any two merges are comparable. -/
structure MergesLightest (list : List Node) : Prop where
  sorted : list.Pairwise fun m n => m.weight ≥ n.weight
  lighter : ∀ a ∈ listMerges list, ∀ n ∈ list, max a.1.weight a.2.weight ≤ n.weight
  comparable : (listMerges list).Pairwise Comparable

/-- The next merge is comparable with all before it. -/
theorem MergesLightest.next_comparable {rest : List Node} {l r : Node}
    (h : MergesLightest (rest ++ [l, r])) :
    ((l, r) :: listMerges (rest ++ [l, r])).Pairwise Comparable := by
  refine List.pairwise_cons.2 ⟨fun a ha => .inr (le_min ?_ ?_), h.comparable⟩
  · exact h.lighter a ha l (by simp)
  · exact h.lighter a ha r (by simp)

/-- A pass takes the two lightest, so no later merge takes a lighter node. -/
theorem MergesLightest.pass (rest : List Node) (l r : Node) (h : MergesLightest (rest ++ [l, r])) :
    MergesLightest (insertNode (Node.join l r) rest) := by
  obtain ⟨hrest, -, hlast⟩ := List.pairwise_append.1 h.sorted
  have hperm := listMerges_insertNode_join rest l r
  refine ⟨insertBefore_sorted hrest, fun a ha n hn => ?_,
    (hperm.pairwise_iff Comparable.symm).2 h.next_comparable⟩
  have ha' := List.mem_cons.1 (hperm.mem_iff.1 ha)
  rcases mem_insertBefore.1 hn with rfl | hn
  · have hjoin : l.weight ≤ (Node.join l r).weight ∧ r.weight ≤ (Node.join l r).weight := by simp
    rcases ha' with rfl | ha
    · exact max_le hjoin.1 hjoin.2
    · exact (h.lighter a ha l (by simp)).trans hjoin.1
  · rcases ha' with rfl | ha
    · exact max_le (hlast n hn l (by simp)) (hlast n hn r (by simp))
    · exact h.lighter a ha n (List.mem_append_left _ hn)

/-- No merge is made yet. -/
theorem listMerges_initialList (b : BuildWork) : listMerges (initialList b) = [] := by
  simp [listMerges, initialList, Node.merges]

theorem mergesLightest_initialList (input : List Symbol) :
    MergesLightest (initialList (countFrequencies input)) := by
  refine ⟨initialList_sorted input, ?_, ?_⟩
  · simp [listMerges_initialList]
  · simp [listMerges_initialList]

/-- Any two merges of the tree are comparable. -/
theorem comparable_merges_buildRoot {input : List Symbol} {root : Node}
    (h : buildRoot (initialList (countFrequencies input)) = some root) :
    root.merges.Pairwise Comparable := by
  obtain ⟨l, r, hlr, rfl⟩ :=
    buildRoot_induction MergesLightest.pass (mergesLightest_initialList input) h
  simpa [listMerges, Node.join, Node.merges] using hlr.next_comparable (rest := [])

/-! ## Merges by their paths -/

/-- Where a walk ends at an Internal node, its children were merged. -/
theorem mem_merges_of_walk {n a b : Node} {w : Nat} {p : List Bit}
    (hp : n.walk p = some (.internal w a b)) : (a, b) ∈ n.merges :=
  walk_induction (P := fun m => ∀ c ∈ m.merges, c ∈ n.merges)
    (fun _ l r h c hc => h c (by simp [Node.merges, hc]))
    (fun _ l r h c hc => h c (by simp [Node.merges, hc])) (fun _ hc => hc) hp _ (by simp [Node.merges])

/-- The Internal nodes at two different places of a tree have comparable merges. -/
theorem comparable_of_walk {n a b c d : Node} {v w : Nat} {p q : List Bit}
    (h : n.merges.Pairwise Comparable) (hpq : p ≠ q) (hp : n.walk p = some (.internal v a b))
    (hq : n.walk q = some (.internal w c d)) : Comparable (a, b) (c, d) := by
  induction n generalizing p q with
  | leaf s u => cases p <;> cases hp
  | internal u l r ihl ihr =>
    obtain ⟨hroot, hchildren⟩ := List.pairwise_cons.1 h
    obtain ⟨hl, hr, hlr⟩ := List.pairwise_append.1 hchildren
    have below {x : Bit} {p' : List Bit} {u' : Nat} {e f : Node}
        (hp' : (Node.internal u l r).walk (x :: p') = some (.internal u' e f)) :
        (e, f) ∈ l.merges ++ r.merges := by
      cases x with
      | false => exact List.mem_append_left _ (mem_merges_of_walk hp')
      | true => exact List.mem_append_right _ (mem_merges_of_walk hp')
    match p, q with
    | [], [] => exact absurd rfl hpq
    | [], _ :: _ => cases hp; exact hroot _ (below hq)
    | _ :: _, [] => cases hq; exact (hroot _ (below hp)).symm
    | false :: p, false :: q => exact ihl hl (by simpa using hpq) hp hq
    | true :: p, true :: q => exact ihr hr (by simpa using hpq) hp hq
    | false :: p, true :: q => exact hlr _ (mem_merges_of_walk hp) _ (mem_merges_of_walk hq)
    | true :: p, false :: q => exact (hlr _ (mem_merges_of_walk hq) _ (mem_merges_of_walk hp)).symm

/-! ## Depth (R116) -/

/-- A walk of one bit more ends at a child. -/
theorem walk_append_singleton {n x : Node} {p : List Bit} {b : Bit} (h : n.walk (p ++ [b]) = some x) :
    ∃ w l r, n.walk p = some (.internal w l r) ∧ (x = l ∨ x = r) := by
  rw [walk_append] at h
  obtain ⟨m, hm, hx⟩ := Option.bind_eq_some_iff.1 h
  cases m with
  | leaf s w => cases hx
  | internal w l r =>
    refine ⟨w, l, r, hm, ?_⟩
    cases b with
    | false => exact .inl (Option.some.inj ((walk_nil l).symm.trans hx)).symm
    | true => exact .inr (Option.some.inj ((walk_nil r).symm.trans hx)).symm

/-- The parent of a heavier node is heavier, when its merge is comparable with that of the lighter. -/
theorem weight_sum_lt_of_comparable {l r l' r' x y : Node} (h : Comparable (l, r) (l', r'))
    (hx : x = l ∨ x = r) (hy : y = l' ∨ y = r') (hxy : y.weight < x.weight) :
    l'.weight + r'.weight < l.weight + r.weight := by
  simp only [Comparable, NoHeavier] at h
  rcases hx with rfl | rfl <;> rcases hy with rfl | rfl <;> omega

/-- A heavier node lies no deeper than a lighter one: else so would their parents. -/
theorem length_le_of_weight_lt {n x y : Node} {p q : List Bit} (hsummed : n.summed)
    (hmerges : n.merges.Pairwise Comparable) (hp : n.walk p = some x) (hq : n.walk q = some y)
    (hxy : y.weight < x.weight) : p.length ≤ q.length := by
  induction p using List.reverseRecOn generalizing q x y with
  | nil => exact Nat.zero_le _
  | append_singleton p b ih =>
    obtain ⟨v, l, r, hparent, hx⟩ := walk_append_singleton hp
    cases q using List.reverseRecOn with
    | nil =>
      have hle := weight_walk_le hsummed hp
      rw [walk_nil] at hq
      cases hq
      omega
    | append_singleton q c =>
      obtain ⟨w, l', r', hparent', hy⟩ := walk_append_singleton hq
      have hv : v = l.weight + r.weight := (summed_walk hsummed hparent).1
      have hw : w = l'.weight + r'.weight := (summed_walk hsummed hparent').1
      simp only [List.length_append, List.length_singleton, Nat.add_le_add_iff_right]
      by_cases hpq : p = q
      · rw [hpq]
      · refine ih hparent hparent' ?_
        show w < v
        rw [hv, hw]
        exact weight_sum_lt_of_comparable (comparable_of_walk hmerges hpq hparent hparent') hx hy hxy

/-- Two different symbols of a payload have their leaves in its tree. -/
theorem exists_root_walk_read {input : List Symbol} {a b : Symbol} (ha : a ∈ input) (hb : b ∈ input)
    (hab : a ≠ b) :
    ∃ root, buildRoot (initialList (countFrequencies input)) = some root ∧
      ∀ s ∈ input, root.walk (CodeTable.read (buildTable input) s) =
        some (.leaf s (input.count s)) := by
  rw [← mem_ord_iff] at ha hb
  rcases codesOf_cases (countFrequencies input) with ⟨hord, -⟩ | ⟨s, hord, -⟩ | ⟨root, hroot, hcodes⟩
  · simp [hord] at ha
  · rw [hord, List.mem_singleton] at ha hb
    exact absurd (ha.trans hb.symm) hab
  · refine ⟨root, hroot, fun s hs => ?_⟩
    have hcode := read_buildTable_mem_codesOf hs
    rw [hcodes] at hcode
    obtain ⟨w, hw⟩ := mem_deriveCodes.1 hcode
    have hleaf : (s, w) ∈ root.leaves := (leaves_walk hw).subset (by simp [Node.leaves])
    have hcount : w = input.count s := (weight_leaf_buildRoot hroot hleaf).2
    rw [hw, hcount]

/-- Settles O38: the frequencies are the weights of the leaves, and "abc" is computed. -/
theorem higherFrequencyHasNoLongerCode : Obligations.HigherFrequencyHasNoLongerCode := by
  unfold Obligations.HigherFrequencyHasNoLongerCode
  refine ⟨fun input a b hb hab => ?_, by decide +kernel, by decide +kernel⟩
  have ha : a ∈ input := List.count_pos_iff.1 (by omega)
  have hne : a ≠ b := by
    rintro rfl
    exact lt_irrefl _ hab
  obtain ⟨root, hroot, hwalk⟩ := exists_root_walk_read ha hb hne
  exact length_le_of_weight_lt (summed_buildRoot_initialList hroot)
    (comparable_merges_buildRoot hroot) (hwalk a ha) (hwalk b hb) hab

end Sys2Proof.Machine

/-! SUPPORT. ENCODE with its payload there (R140 to R145): the whole next state with every symbol
present and at the first absent one, and ENCODE under the table of a BUILD. -/

namespace Sys2Proof.Machine

/-! ## Success and failure (R140, R142) -/

/-- ENCODE of present symbols puts their codes on BO. -/
theorem exec_encode_present {count : Nat} {s : State} (hready : count ≤ s.si.length)
    (h : ∀ x ∈ s.si.take count, CodeTable.read s.ct x ≠ []) :
    exec (.encode count) s =
      .next (respond (concatCodes s.ct (s.si.take count)).length
        (emitBO (concatCodes s.ct (s.si.take count)) { s with si := s.si.drop count })) := by
  have hmessage : encodeMessage s.ct (s.si.take count) = .ok (concatCodes s.ct (s.si.take count)) :=
    encodeLoop_present 0 [] h
  rw [exec_encode_ready hready, encodeAct, hmessage]

/-- ENCODE raises MissingCodeError at the first absent symbol. -/
theorem exec_encode_absent {count : Nat} {s : State} {before after : List Symbol} {x : Symbol}
    (hready : count ≤ s.si.length) (hinput : s.si.take count = before ++ x :: after)
    (hbefore : ∀ y ∈ before, CodeTable.read s.ct y ≠ []) (hx : CodeTable.read s.ct x = []) :
    exec (.encode count) s =
      .next (raise .missingCode before.length { s with si := s.si.drop count }) := by
  have hmessage : encodeMessage s.ct (before ++ x :: after) = .fail .missingCode before.length := by
    simpa [encodeMessage] using encodeLoop_missing 0 [] hbefore hx
  rw [exec_encode_ready hready, encodeAct, hinput, hmessage]

/-- Either every symbol of a payload is present, or one is the first that is absent. -/
theorem present_or_first_absent (t : CodeTable) (input : List Symbol) :
    (∀ x ∈ input, CodeTable.read t x ≠ []) ∨
      ∃ before x after, input = before ++ x :: after ∧
        (∀ y ∈ before, CodeTable.read t y ≠ []) ∧ CodeTable.read t x = [] := by
  cases hfind : input.find? fun x => decide (CodeTable.read t x = []) with
  | none => exact .inl (by simpa using hfind)
  | some x =>
    obtain ⟨hx, before, after, hinput, hbefore⟩ := List.find?_eq_some_iff_append.1 hfind
    exact .inr ⟨before, x, after, hinput, by simpa using hbefore, by simpa using hx⟩

/-- ENCODE answers once, with OK exactly when every payload symbol is present. -/
theorem exec_encode_status {count : Nat} {s : State} (hready : count ≤ s.si.length) :
    ∃ t r, exec (.encode count) s = .next t ∧ t.rsp = s.rsp ++ [r] ∧
      (rspStatus r = 0x00#8 ↔ ∀ x ∈ s.si.take count, CodeTable.read s.ct x ≠ []) := by
  rcases present_or_first_absent s.ct (s.si.take count) with h | ⟨before, x, after, hinput, hbefore, hx⟩
  · exact ⟨_, _, exec_encode_present hready h, rfl, iff_of_true (rspStatus_okRsp _) h⟩
  · refine ⟨_, _, exec_encode_absent hready hinput hbefore hx, rfl, iff_of_false ?_ fun h => ?_⟩
    · rw [rspStatus_errRsp]
      decide
    · exact h x (by simp [hinput]) hx

/-- Settles O39: the loop has appended every code. -/
theorem encodeConcatenatesTheCodes : Obligations.EncodeConcatenatesTheCodes := by
  unfold Obligations.EncodeConcatenatesTheCodes
  intro count s hready h
  rw [exec_encode_present hready h, concatCodes, List.length_flatMap, List.flatMap_def, respond, emitBO,
    okRsp_eq]

/-- Settles O40: the symbols before index `i` are those the loop has passed. -/
theorem encodeReportsTheFirstMissingCode : Obligations.EncodeReportsTheFirstMissingCode := by
  unfold Obligations.EncodeReportsTheFirstMissingCode
  intro count i s x hready hi hget hx hbefore
  obtain ⟨hlt, rfl⟩ := List.getElem?_eq_some_iff.1 hget
  have hinput : s.si.take count = s.si.take i ++ s.si[i] :: (s.si.take count).drop (i + 1) := by
    conv_lhs => rw [← List.take_append_drop i (s.si.take count)]
    rw [List.take_take, Nat.min_eq_left hi.le, List.drop_eq_getElem_cons (by simp; omega),
      List.getElem_take]
  have hpresent : ∀ y ∈ s.si.take i, CodeTable.read s.ct y ≠ [] := fun y hy => by
    obtain ⟨j, hj, rfl⟩ := List.mem_take_iff_getElem.1 hy
    exact hbefore j _ (by omega) (List.getElem?_eq_getElem _)
  rw [exec_encode_absent hready hinput hpresent hx, List.length_take, Nat.min_eq_left hlt.le]
  rfl

/-- Settles O41: no symbol of the empty payload is absent. -/
theorem encodeOfEmptyPayload : Obligations.EncodeOfEmptyPayload := by
  unfold Obligations.EncodeOfEmptyPayload
  intro s
  rw [exec_encode_present (Nat.zero_le _) (by simp), ← okRsp_zero]
  simp [respond, emitBO, concatCodes]

/-! ## ENCODE after BUILD (R145) -/

/-- After a successful BUILD the present symbols are those of its payload, the empty one included. -/
theorem read_ne_nil_iff_of_exec_build {ne : Bool} {count : Nat} {s t : State}
    (hok : 1 ≤ count ∨ ne = false) (hready : count ≤ s.si.length)
    (h : exec (.build ne count) s = .next t) (x : Symbol) :
    CodeTable.read t.ct x ≠ [] ↔ x ∈ s.si.take count := by
  rcases Nat.eq_zero_or_pos count with rfl | hcount
  · obtain rfl : ne = false := by simpa using hok
    rw [exec_build_ready hready] at h
    cases h
    simp [buildAct]
  · rw [exec_build_pos ne hcount hready] at h
    cases h
    exact read_buildTable_ne_nil_iff

/-- `eraseDups` leaves no repeats. -/
theorem nodup_eraseDups : ∀ input : List Symbol, input.eraseDups.Nodup
  | [] => by simp
  | x :: input => by
    rw [List.eraseDups_cons, List.nodup_cons]
    exact ⟨by simp, nodup_eraseDups _⟩
termination_by input => input.length
decreasing_by exact Nat.lt_succ_of_le (List.length_filter_le _ _)

/-- A sum over a payload, gathered by its distinct symbols. -/
theorem sum_map_eq_sum_eraseDups (input : List Symbol) (f : Symbol → Nat) :
    (input.map f).sum = (input.eraseDups.map fun x => input.count x * f x).sum :=
  calc (input.map f).sum = ∑ x ∈ input.toFinset, input.count x * f x := Finset.sum_list_map_count input f
    _ = ∑ x ∈ input.eraseDups.toFinset, input.count x * f x :=
      Finset.sum_congr (by ext; simp) fun _ _ => rfl
    _ = _ := List.sum_toFinset _ (nodup_eraseDups input)

/-- Settles O42: the present symbols are those of `p`, and the length of the output is a sum over `p`. -/
theorem encodeAfterBuild : Obligations.EncodeAfterBuild := by
  unfold Obligations.EncodeAfterBuild
  intro ne s t count hok hready hbuild
  have hpresent := read_ne_nil_iff_of_exec_build hok hready hbuild
  refine ⟨fun u k hct hk => ?_, fun u hct hk hinput => ?_⟩
  · obtain ⟨v, r, hexec, hrsp, hstatus⟩ := exec_encode_status hk
    exact ⟨v, r, hexec, hrsp, by simpa only [hct, hpresent] using hstatus⟩
  · have hall : ∀ x ∈ u.si.take count, CodeTable.read u.ct x ≠ [] := fun x hx => by
      rwa [hct, hpresent, ← hinput]
    refine ⟨_, _, exec_encode_present hk hall, rfl, rfl, ?_⟩
    rw [concatCodes, List.length_flatMap, hct, hinput, sum_map_eq_sum_eraseDups]

end Sys2Proof.Machine

/-! SUPPORT. Phase 1 of DECODE (R152): when the walk ends in INV and what INV then answers, and where it
meets a code again. -/

namespace Sys2Proof.Machine

/-! ## Lookups -/

theorem assocFind_eq_none_iff_not_mem {κ ν : Type} [DecidableEq κ] {k : κ} {m : List (κ × ν)} :
    assocFind k m = none ↔ k ∉ m.map Prod.fst := by
  simp only [assocFind_eq_none, List.mem_map, not_exists, not_and, ne_eq]

/-- With distinct keys a lookup finds every pair. -/
theorem assocFind_eq_some_iff {κ ν : Type} [DecidableEq κ] {k : κ} {v : ν} {m : List (κ × ν)}
    (hkeys : (m.map Prod.fst).Nodup) : assocFind k m = some v ↔ (k, v) ∈ m := by
  refine ⟨mem_of_assocFind, fun hv => ?_⟩
  cases hfind : assocFind k m with
  | none => exact absurd rfl (assocFind_eq_none.1 hfind (k, v) hv)
  | some w =>
    have hpair : (k, w) = (k, v) := List.inj_on_of_nodup_map hkeys (mem_of_assocFind hfind) hv rfl
    simpa using hpair

/-! ## The walk over the entries -/

/-- The walk ends in INV exactly when it meets no code that INV holds or that it has met. -/
theorem invLoop_eq_ok_iff {inv : InvMap} {t : CodeTable} (hinv : (inv.map Prod.fst).Nodup) :
    invLoop inv t = .ok (inv ++ t.map Prod.swap) ↔ (inv.map Prod.fst ++ t.map Prod.snd).Nodup := by
  induction t generalizing inv with
  | nil => simp [invLoop, hinv]
  | cons e t ih =>
    obtain ⟨s, c⟩ := e
    cases hfind : assocFind c inv with
    | some v =>
      have hc : c ∈ inv.map Prod.fst := List.mem_map_of_mem (mem_of_assocFind hfind)
      exact iff_of_false (by simp [invLoop, hfind]) fun h =>
        (List.nodup_append.1 h).2.2 c hc c (by simp) rfl
    | none =>
      have hinv' : ((inv ++ [(c, s)]).map Prod.fst).Nodup := by
        rw [List.map_append]
        exact hinv.append (List.nodup_singleton c)
          (List.disjoint_singleton.2 (assocFind_eq_none_iff_not_mem.1 hfind))
      simpa [invLoop, hfind] using ih hinv'

theorem inverseMap_eq_ok_iff {t : CodeTable} :
    inverseMap t = .ok (t.map Prod.swap) ↔ (t.map Prod.snd).Nodup :=
  invLoop_eq_ok_iff List.nodup_nil

theorem invLoop_append {inv m : InvMap} {before after : CodeTable} (h : invLoop inv before = .ok m) :
    invLoop inv (before ++ after) = invLoop m after := by
  induction before generalizing inv with
  | nil => cases h; rfl
  | cons e before ih =>
    obtain ⟨s, c⟩ := e
    cases hfind : assocFind c inv with
    | some v => simp [invLoop, hfind] at h
    | none =>
      simp only [List.cons_append, invLoop, hfind] at h ⊢
      exact ih h

/-! ## Codes met twice -/

theorem hasDuplicate_of_duplicateAt {t : CodeTable} {x : Symbol} (h : DuplicateAt t x) :
    HasDuplicate t := by
  obtain ⟨hx, a, hax, hcode⟩ := h
  exact ⟨a, x, BitVec.ne_of_lt hax, hcode ▸ hx, hcode⟩

/-- Entries none of which repeats the code of a smaller symbol have distinct codes. -/
theorem nodup_codes_of_not_duplicateAt {t entries : CodeTable} (hwf : CodeTable.wf t)
    (hsub : entries.Sublist t) (h : ∀ e ∈ entries, ¬ DuplicateAt t e.1) : (entries.map Prod.snd).Nodup := by
  refine List.pairwise_map.2 ((hwf.1.sublist hsub).imp_of_mem fun {e f} he hf hlt heq => h f hf ?_)
  have hread : CodeTable.read t f.1 = f.2 := read_of_mem hwf (hsub.subset hf)
  exact ⟨hread ▸ (hwf.2 f (hsub.subset hf)).1, e.1, hlt,
    (read_of_mem hwf (hsub.subset he)).trans (heq.trans hread.symm)⟩

/-- Phase 1 ends in INV exactly when no code stands in the table twice. -/
theorem inverseMap_eq_ok_iff_not_hasDuplicate {t : CodeTable} (hwf : CodeTable.wf t) :
    inverseMap t = .ok (t.map Prod.swap) ↔ ¬ HasDuplicate t := by
  rw [inverseMap_eq_ok_iff]
  constructor
  · rintro hnodup ⟨a, b, hab, ha, hcode⟩
    have hpair : (a, CodeTable.read t a) = (b, CodeTable.read t b) :=
      List.inj_on_of_nodup_map hnodup (mem_of_read_ne_nil ha) (mem_of_read_ne_nil (hcode ▸ ha)) hcode
    exact hab (congrArg Prod.fst hpair)
  · exact fun h => nodup_codes_of_not_duplicateAt hwf (List.Sublist.refl t) fun _ _ hx =>
      h (hasDuplicate_of_duplicateAt hx)

theorem not_hasDuplicate_of_inverseMap {t : CodeTable} {inv : InvMap} (hwf : CodeTable.wf t)
    (hinv : inverseMap t = .ok inv) : ¬ HasDuplicate t :=
  (inverseMap_eq_ok_iff_not_hasDuplicate hwf).1 (inverseMap_ok hinv ▸ hinv)

theorem inverseMap_of_hasDuplicate {t : CodeTable} (hwf : CodeTable.wf t) (h : HasDuplicate t) :
    ∃ info, inverseMap t = .fail .duplicateCode info := by
  cases hinv : inverseMap t with
  | ok inv => exact absurd h (not_hasDuplicate_of_inverseMap hwf hinv)
  | fail e info => exact ⟨info, by rw [(invLoop_fail hinv).1]⟩

/-- Phase 1 fails at the smallest symbol that repeats the code of a smaller one: the entries before it
go into INV, and its code is there already. -/
theorem inverseMap_of_duplicateAt {t : CodeTable} {x : Symbol} (hwf : CodeTable.wf t)
    (hx : DuplicateAt t x) (hfirst : ∀ y, y < x → ¬ DuplicateAt t y) :
    inverseMap t = .fail .duplicateCode x.toNat := by
  obtain ⟨hne, a, hax, hcode⟩ := hx
  obtain ⟨before, after, ht⟩ := List.append_of_mem (mem_of_read_ne_nil hne)
  have hrising : (before ++ (x, CodeTable.read t x) :: after).Pairwise (fun a b => a.1 < b.1) :=
    ht ▸ hwf.1
  obtain ⟨-, hafter, hbefore⟩ := List.pairwise_append.1 hrising
  have hwalk : invLoop [] before = .ok (before.map Prod.swap) :=
    inverseMap_eq_ok_iff.2 <| nodup_codes_of_not_duplicateAt hwf
      (ht ▸ List.sublist_append_left before _) fun e he => hfirst e.1 (hbefore e he _ List.mem_cons_self)
  have hmet : (a, CodeTable.read t x) ∈ before := by
    have ha : (a, CodeTable.read t x) ∈ before ++ (x, CodeTable.read t x) :: after :=
      ht ▸ hcode ▸ mem_of_read_ne_nil (hcode ▸ hne)
    rcases List.mem_append.1 ha with ha | ha
    · exact ha
    · rcases List.mem_cons.1 ha with ha | ha
      · cases ha
        exact absurd hax (BitVec.lt_irrefl x)
      · exact absurd ((List.pairwise_cons.1 hafter).1 _ ha) (BitVec.not_lt.2 (BitVec.le_of_lt hax))
  have hfind : assocFind (CodeTable.read t x) (before.map Prod.swap) ≠ none := fun hnone =>
    assocFind_eq_none.1 hnone _ (List.mem_map_of_mem hmet) rfl
  obtain ⟨v, hv⟩ := Option.ne_none_iff_exists'.1 hfind
  rw [inverseMap, ht, invLoop_append hwalk, invLoop, hv]

/-- INV answers each code with its symbol, and nothing else. -/
theorem assocFind_inverseMap {t : CodeTable} {inv : InvMap} (hwf : CodeTable.wf t)
    (hinv : inverseMap t = .ok inv) {c : Code} {s : Symbol} :
    assocFind c inv = some s ↔ c ≠ [] ∧ CodeTable.read t s = c := by
  obtain rfl := inverseMap_ok hinv
  have hkeys : ((t.map Prod.swap).map Prod.fst).Nodup := by
    simpa [Function.comp_def] using inverseMap_eq_ok_iff.1 hinv
  rw [assocFind_eq_some_iff hkeys, ← mem_iff_read hwf]
  simp

end Sys2Proof.Machine

/-! SUPPORT. The shortest-match parse of a bit sequence (R153, R154), and the matcher and the loop that
compute it. -/

namespace Sys2Proof.Machine

/-! ## The parse -/

@[simp] theorem concatCodes_nil (t : CodeTable) : concatCodes t [] = [] := rfl

@[simp] theorem concatCodes_cons (t : CodeTable) (s : Symbol) (out : List Symbol) :
    concatCodes t (s :: out) = CodeTable.read t s ++ concatCodes t out := rfl

theorem noCodeAt_nil (t : CodeTable) : NoCodeAt t [] := fun _ ha h => ha (List.prefix_nil.1 h)

theorem noCodeAt_of_eq_nil_or {t : CodeTable} {bits : List Bit} (h : bits = [] ∨ NoCodeAt t bits) :
    NoCodeAt t bits :=
  h.elim (fun hnil => hnil ▸ noCodeAt_nil t) id

theorem ShortestCodeAt.not_noCodeAt {t : CodeTable} {bits : List Bit} {s : Symbol}
    (h : ShortestCodeAt t bits s) : ¬ NoCodeAt t bits := fun hno => hno s h.1 h.2.1

/-- The symbols whose codes begin the bits. -/
def symbolsAt (t : CodeTable) (bits : List Bit) : Set Symbol :=
  {a | CodeTable.read t a ≠ [] ∧ CodeTable.read t a <+: bits}

/-- Of the codes at a position one is shortest. -/
theorem shortestCodeAt_or_noCodeAt (t : CodeTable) (bits : List Bit) :
    (∃ s, ShortestCodeAt t bits s) ∨ NoCodeAt t bits := by
  by_cases h : (symbolsAt t bits).Nonempty
  · obtain ⟨s, ⟨hs, hpre⟩, hmin⟩ := Set.exists_min_image (symbolsAt t bits)
      (fun a => (CodeTable.read t a).length) (Set.toFinite _) h
    exact .inl ⟨s, hs, hpre, fun a ha hpa => hmin a ⟨ha, hpa⟩⟩
  · exact .inr fun a ha hpa => h ⟨a, ha, hpa⟩

/-- Without duplicate codes only one symbol has the shortest code at a position. -/
theorem ShortestCodeAt.unique {t : CodeTable} {bits : List Bit} {s s' : Symbol}
    (hdup : ¬ HasDuplicate t) (h : ShortestCodeAt t bits s) (h' : ShortestCodeAt t bits s') :
    s = s' := by
  obtain ⟨hs, hpre, hmin⟩ := h
  obtain ⟨hs', hpre', hmin'⟩ := h'
  have hcode : CodeTable.read t s = CodeTable.read t s' :=
    (List.prefix_of_prefix_length_le hpre hpre' (hmin s' hs' hpre')).eq_of_length_le (hmin' s hs hpre)
  by_contra hne
  exact hdup ⟨s, s', hne, hs, hcode⟩

/-- What a parse has passed over are the codes of its symbols. -/
theorem Parses.eq_append {t : CodeTable} {bits rest : List Bit} {out : List Symbol}
    (h : Parses t bits out rest) : bits = concatCodes t out ++ rest := by
  induction h with
  | done rest => rfl
  | more s tail rest out here after ih => rw [concatCodes_cons, List.append_assoc, ← ih]

/-- A parse stops where it is or goes on past the shortest code. -/
theorem Parses.cases_first {t : CodeTable} {bits rest : List Bit} {out : List Symbol}
    (h : Parses t bits out rest) :
    (out = [] ∧ rest = bits) ∨ ∃ s tail out', bits = CodeTable.read t s ++ tail ∧ out = s :: out' ∧
      ShortestCodeAt t bits s ∧ Parses t tail out' rest := by
  cases h with
  | done rest => exact .inl ⟨rfl, rfl⟩
  | more s tail rest out here after => exact .inr ⟨s, tail, out, rfl, rfl, here, after⟩

theorem exists_parse (t : CodeTable) (bits : List Bit) :
    ∃ out rest, Parses t bits out rest ∧ NoCodeAt t rest := by
  induction hn : bits.length using Nat.strong_induction_on generalizing bits with
  | _ n ih =>
    rcases shortestCodeAt_or_noCodeAt t bits with ⟨s, hs⟩ | hno
    · obtain ⟨tail, rfl⟩ := hs.2.1
      have hpos : 0 < (CodeTable.read t s).length := List.length_pos_of_ne_nil hs.1
      have hlt : tail.length < n := by rw [← hn, List.length_append]; omega
      obtain ⟨out, rest, hparse, hno⟩ := ih _ hlt tail rfl
      exact ⟨s :: out, rest, .more s tail rest out hs hparse, hno⟩
    · exact ⟨[], bits, .done bits, hno⟩

/-- Without duplicate codes two complete parses take the same symbol at every position. -/
theorem Parses.unique {t : CodeTable} {bits rest rest' : List Bit} {out out' : List Symbol}
    (hdup : ¬ HasDuplicate t) (h : Parses t bits out rest) (hno : NoCodeAt t rest)
    (h' : Parses t bits out' rest') (hno' : NoCodeAt t rest') : out = out' ∧ rest = rest' := by
  induction h generalizing out' with
  | done rest =>
    rcases h'.cases_first with ⟨rfl, rfl⟩ | ⟨s, tail, out'', -, -, hs, -⟩
    · exact ⟨rfl, rfl⟩
    · exact absurd hno hs.not_noCodeAt
  | more s tail rest out here after ih =>
    rcases h'.cases_first with ⟨rfl, rfl⟩ | ⟨s', tail', out'', hbits, rfl, hs', hafter⟩
    · exact absurd hno' here.not_noCodeAt
    · obtain rfl := here.unique hdup hs'
      obtain rfl := List.append_cancel_left hbits
      obtain ⟨rfl, rfl⟩ := ih hno hafter
      exact ⟨rfl, rfl⟩

/-- Settles O46: one code is shortest at each position, and without duplicates it is one symbol's. -/
theorem everyBitSequenceHasOneParse : Obligations.EveryBitSequenceHasOneParse := by
  unfold Obligations.EveryBitSequenceHasOneParse
  refine ⟨fun t bits => ?_, fun t bits out out' rest rest' hdup h hno h' hno' => ?_⟩
  · obtain ⟨out, rest, hparse, hno⟩ := exists_parse t bits
    exact ⟨out, rest, hparse, .inr hno⟩
  · exact h.unique hdup (noCodeAt_of_eq_nil_or hno) h' (noCodeAt_of_eq_nil_or hno')

/-! ## The matcher finds the shortest code, and the loop follows the parse -/

@[simp] theorem decodeLoop_nil (inv : InvMap) (k pos : Nat) (out : List Symbol) :
    decodeLoop inv k pos out [] = .ok out := by
  cases k <;> rfl

section Loops

variable {t : CodeTable} {inv : InvMap} (hwf : CodeTable.wf t) (hinv : inverseMap t = .ok inv)
include hwf hinv

theorem shortestCodeAt_of_matchLoop {bits : List Bit} {k n : Nat} {s : Symbol}
    (h : matchLoop inv bits k 1 = some (s, n)) :
    ShortestCodeAt t bits s ∧ (CodeTable.read t s).length = n := by
  obtain ⟨-, hn, hfind, hnone⟩ := matchLoop_some h
  obtain ⟨hne, hread⟩ := (assocFind_inverseMap hwf hinv).1 hfind
  have hlen : (CodeTable.read t s).length = n := by rw [hread, List.length_take, Nat.min_eq_left hn]
  refine ⟨⟨hread ▸ hne, hread ▸ List.take_prefix n bits, fun a ha hpre => ?_⟩, hlen⟩
  by_contra hlt
  have hmiss := hnone _ (List.length_pos_of_ne_nil ha) (hlen ▸ Nat.lt_of_not_le hlt)
  rw [← List.prefix_iff_eq_take.1 hpre, (assocFind_inverseMap hwf hinv).2 ⟨ha, rfl⟩] at hmiss
  cases hmiss

/-- A matcher whose bound on the lengths reaches every code at the position finds the shortest. -/
theorem matchLoop_eq_some_iff {bits : List Bit} {k n : Nat} {s : Symbol}
    (hk : ∀ a, CodeTable.read t a <+: bits → (CodeTable.read t a).length ≤ k) :
    matchLoop inv bits k 1 = some (s, n) ↔
      ShortestCodeAt t bits s ∧ (CodeTable.read t s).length = n := by
  refine ⟨shortestCodeAt_of_matchLoop hwf hinv, fun ⟨hs, hn⟩ => ?_⟩
  cases hmatch : matchLoop inv bits k 1 with
  | none =>
    have hmiss := matchLoop_none hmatch (List.length_pos_of_ne_nil hs.1)
      (by have := hk s hs.2.1; omega) hs.2.1.length_le
    rw [← List.prefix_iff_eq_take.1 hs.2.1, (assocFind_inverseMap hwf hinv).2 ⟨hs.1, rfl⟩] at hmiss
    cases hmiss
  | some m =>
    obtain ⟨s', n'⟩ := m
    obtain ⟨hs', hn'⟩ := shortestCodeAt_of_matchLoop hwf hinv hmatch
    obtain rfl := hs.unique (not_hasDuplicate_of_inverseMap hwf hinv) hs'
    rw [← hn, hn']

theorem shortestMatch_eq_some_iff {bits : List Bit} {n : Nat} {s : Symbol} :
    shortestMatch inv bits = some (s, n) ↔
      ShortestCodeAt t bits s ∧ (CodeTable.read t s).length = n :=
  matchLoop_eq_some_iff hwf hinv fun _ h => h.length_le

theorem shortestMatch_eq_none {bits : List Bit} (hno : NoCodeAt t bits) :
    shortestMatch inv bits = none :=
  Option.eq_none_iff_forall_ne_some.2 fun _ hmatch =>
    ((shortestMatch_eq_some_iff hwf hinv).1 hmatch).1.not_noCodeAt hno

/-- The matcher that stops at MAXLEN, which no code exceeds (R159). -/
theorem matchLoop_maxLen (bits : List Bit) : matchLoop inv bits Config.maxLen 1 = shortestMatch inv bits :=
  Option.ext fun ⟨_, _⟩ =>
    (matchLoop_eq_some_iff hwf hinv fun a _ => read_length_le hwf a).trans
      (shortestMatch_eq_some_iff hwf hinv).symm

theorem decodeLoop_match {tail : List Bit} {s : Symbol} (k pos : Nat) (out : List Symbol)
    (h : ShortestCodeAt t (CodeTable.read t s ++ tail) s) :
    decodeLoop inv (k + 1) pos out (CodeTable.read t s ++ tail) =
      decodeLoop inv k (pos + (CodeTable.read t s).length) (out ++ [s]) tail := by
  have hmatch := (shortestMatch_eq_some_iff hwf hinv).2 ⟨h, rfl⟩
  simp [decodeLoop, hmatch, h.1]

theorem decodeLoop_noCodeAt {bits : List Bit} (k pos : Nat) (out : List Symbol) (hbits : bits ≠ [])
    (hno : NoCodeAt t bits) : decodeLoop inv k pos out bits = .fail .truncatedSequence pos := by
  have hmatch := shortestMatch_eq_none hwf hinv hno
  cases k with
  | zero => simp [decodeLoop, hbits]
  | succ k => simp [decodeLoop, hbits, hmatch]

/-- The loop comes to the end of every parse. -/
theorem decodeLoop_parses {bits rest : List Bit} {out : List Symbol} (h : Parses t bits out rest)
    {k : Nat} (pos : Nat) (acc : List Symbol) (hk : bits.length ≤ k) :
    ∃ k', decodeLoop inv k pos acc bits =
      decodeLoop inv k' (pos + (concatCodes t out).length) (acc ++ out) rest := by
  induction h generalizing k pos acc with
  | done rest => exact ⟨k, by simp⟩
  | more s tail rest out here after ih =>
    have hpos : 0 < (CodeTable.read t s).length := List.length_pos_of_ne_nil here.1
    rw [List.length_append] at hk
    obtain ⟨j, rfl⟩ : ∃ j, k = j + 1 := ⟨k - 1, by omega⟩
    obtain ⟨k', hk'⟩ := ih (pos + (CodeTable.read t s).length) (acc ++ [s]) (k := j) (by omega)
    refine ⟨k', ?_⟩
    rw [decodeLoop_match hwf hinv _ _ _ here, hk']
    simp [Nat.add_assoc]

end Loops

end Sys2Proof.Machine

/-! SUPPORT. DECODE with its payload there (R150 to R155), in terms of phase 1 and of the parse. -/

namespace Sys2Proof.Machine

/-! ## The computation and the command -/

section Message

variable {t : CodeTable} {bits rest : List Bit} {out : List Symbol}

theorem decodeMessage_of_inverseMap {inv : InvMap} (h : inverseMap t = .ok inv) (bits : List Bit) :
    decodeMessage t bits = decodeLoop inv bits.length 0 [] bits := by
  rw [decodeMessage, h]

theorem decodeMessage_of_parses (hwf : CodeTable.wf t) (hdup : ¬ HasDuplicate t)
    (h : Parses t bits out []) : decodeMessage t bits = .ok out := by
  have hinv := (inverseMap_eq_ok_iff_not_hasDuplicate hwf).2 hdup
  obtain ⟨k, hk⟩ := decodeLoop_parses hwf hinv h 0 [] le_rfl
  rw [decodeMessage_of_inverseMap hinv, hk, decodeLoop_nil, List.nil_append]

theorem decodeMessage_of_noCodeAt (hwf : CodeTable.wf t) (hdup : ¬ HasDuplicate t)
    (h : Parses t bits out rest) (hrest : rest ≠ []) (hno : NoCodeAt t rest) :
    decodeMessage t bits = .fail .truncatedSequence (concatCodes t out).length := by
  have hinv := (inverseMap_eq_ok_iff_not_hasDuplicate hwf).2 hdup
  obtain ⟨k, hk⟩ := decodeLoop_parses hwf hinv h 0 [] le_rfl
  rw [decodeMessage_of_inverseMap hinv, hk, decodeLoop_noCodeAt hwf hinv _ _ _ hrest hno, Nat.zero_add]

end Message

section Command

variable {count : Nat} {s : State} (hready : count ≤ s.bi.length)
include hready

theorem exec_decode_ok {out : List Symbol} (h : decodeMessage s.ct (s.bi.take count) = .ok out) :
    exec (.decode count) s =
      .next (respond out.length (emitSO out { s with bi := s.bi.drop count })) := by
  rw [exec_decode_ready hready, decodeAct, h]

theorem exec_decode_fail {e : Error} {info : Nat}
    (h : decodeMessage s.ct (s.bi.take count) = .fail e info) :
    exec (.decode count) s = .next (raise e info { s with bi := s.bi.drop count }) := by
  rw [exec_decode_ready hready, decodeAct, h]

/-- DECODE of a payload that parses to its end. -/
theorem exec_decode_of_parses (hwf : CodeTable.wf s.ct) (hdup : ¬ HasDuplicate s.ct)
    {out : List Symbol} (h : Parses s.ct (s.bi.take count) out []) :
    exec (.decode count) s =
      .next (respond out.length (emitSO out { s with bi := s.bi.drop count })) :=
  exec_decode_ok hready (decodeMessage_of_parses hwf hdup h)

/-- DECODE of a payload whose parse comes to bits that no code begins. -/
theorem exec_decode_of_noCodeAt (hwf : CodeTable.wf s.ct) (hdup : ¬ HasDuplicate s.ct)
    {out : List Symbol} {rest : List Bit} (h : Parses s.ct (s.bi.take count) out rest)
    (hrest : rest ≠ []) (hno : NoCodeAt s.ct rest) :
    exec (.decode count) s = .next (raise .truncatedSequence (concatCodes s.ct out).length
      { s with bi := s.bi.drop count }) :=
  exec_decode_fail hready (decodeMessage_of_noCodeAt hwf hdup h hrest hno)

/-- DECODE under a table that phase 1 rejects. -/
theorem exec_decode_of_inverseMap_fail {e : Error} {info : Nat} (h : inverseMap s.ct = .fail e info) :
    exec (.decode count) s = .next (raise e info { s with bi := s.bi.drop count }) :=
  exec_decode_fail hready (by rw [decodeMessage, h])

end Command

/-- Settles O43: phase 1 fails at `x`, and phase 2 has no such error. -/
theorem decodeReportsDuplicateCodes : Obligations.DecodeReportsDuplicateCodes := by
  unfold Obligations.DecodeReportsDuplicateCodes
  refine ⟨fun count s x hwf hready hx hfirst => ?_, fun count s hwf hready hdup => ?_⟩
  · rw [exec_decode_of_inverseMap_fail hready (inverseMap_of_duplicateAt hwf hx hfirst)]
    rfl
  · obtain ⟨out, rest, hparse, hno⟩ := exists_parse s.ct (s.bi.take count)
    by_cases hrest : rest = []
    · subst hrest
      exact ⟨_, _, exec_decode_of_parses hready hwf hdup hparse, rfl, by rw [rspStatus_okRsp]; decide⟩
    · exact ⟨_, _, exec_decode_of_noCodeAt hready hwf hdup hparse hrest hno, rfl,
        by rw [rspStatus_errRsp]; decide⟩

/-- Settles O44: the loop has followed the parse to its end. -/
theorem decodeTakesTheShortestMatch : Obligations.DecodeTakesTheShortestMatch := by
  unfold Obligations.DecodeTakesTheShortestMatch
  intro count s out hwf hready hdup hparse
  rw [exec_decode_of_parses hready hwf hdup hparse, respond, emitSO, okRsp_eq]

/-- Settles O45: the bits before the unmatched ones are the codes of the symbols matched. -/
theorem decodeReportsTheUnmatchedPosition : Obligations.DecodeReportsTheUnmatchedPosition := by
  unfold Obligations.DecodeReportsTheUnmatchedPosition
  intro count s out rest hwf hready hdup hparse hrest hno
  have hposition : (concatCodes s.ct out).length = count - rest.length := by
    have hlen := congrArg List.length hparse.eq_append
    rw [List.length_take, Nat.min_eq_left hready, List.length_append] at hlen
    omega
  rw [exec_decode_of_noCodeAt hready hwf hdup hparse hrest hno, hposition]
  rfl

theorem not_hasDuplicate_empty : ¬ HasDuplicate CodeTable.empty := fun ⟨_, _, _, ha, _⟩ => ha rfl

/-- Settles O47: no bits parse into no symbols, and under the empty table nothing matches. -/
theorem decodeEmptyCases : Obligations.DecodeEmptyCases := by
  unfold Obligations.DecodeEmptyCases
  refine ⟨fun s hwf hdup => ?_, fun s hwf hdup => ?_, fun count s hct hcount hready => ?_⟩
  · rw [exec_decode_of_parses (Nat.zero_le _) hwf hdup (.done []), ← okRsp_zero]
    simp [respond, emitSO]
  · obtain ⟨info, hinv⟩ := inverseMap_of_hasDuplicate hwf hdup
    exact ⟨_, _, exec_decode_of_inverseMap_fail (Nat.zero_le _) hinv, rfl, rspStatus_errRsp _ _⟩
  · have hpayload : s.bi.take count ≠ [] := List.ne_nil_of_length_pos <| by
      rw [List.length_take]; omega
    have hno : NoCodeAt s.ct (s.bi.take count) := fun a ha => absurd (by rw [hct]; rfl) ha
    have hrsp : errRsp .truncatedSequence 0 = 0x04000000000000000000#80 := by decide
    rw [exec_decode_of_noCodeAt hready (hct ▸ wf_empty) (hct ▸ not_hasDuplicate_empty) (.done _)
      hpayload hno, ← hrsp]
    rfl

end Sys2Proof.Machine

/-! SUPPORT. DECODE under a table no code of which begins another symbol's code, and under one with such
a code, and DECODE of the messages that ENCODE has encoded (R156 to R160). -/

namespace Sys2Proof.Machine

/-! ## The codes at a position (R156, R157) -/

/-- With no code beginning another, only one code begins the bits. -/
theorem PrefixFree.eq_of_prefix {t : CodeTable} (h : PrefixFree t) {a b : Symbol} {bits : List Bit}
    (ha : CodeTable.read t a ≠ []) (hb : CodeTable.read t b ≠ []) (hpa : CodeTable.read t a <+: bits)
    (hpb : CodeTable.read t b <+: bits) : a = b := by
  by_contra hab
  rcases List.prefix_or_prefix_of_prefix hpa hpb with hpre | hpre
  · exact h a b hab ha hb hpre
  · exact h b a (Ne.symm hab) hb ha hpre

theorem PrefixFree.shortestCodeAt {t : CodeTable} (h : PrefixFree t) {s : Symbol}
    (hs : CodeTable.read t s ≠ []) (tail : List Bit) :
    ShortestCodeAt t (CodeTable.read t s ++ tail) s :=
  ⟨hs, List.prefix_append _ _, fun _ ha hpa =>
    h.eq_of_prefix ha hs hpa (List.prefix_append _ _) ▸ le_rfl⟩

/-- Settles O48: the code at the head of the bits is the only one there. -/
theorem firstMatchIsTheOnlyMatch : Obligations.FirstMatchIsTheOnlyMatch := by
  unfold Obligations.FirstMatchIsTheOnlyMatch
  intro t inv s tail hwf hpf hs hinv
  exact ⟨(shortestMatch_eq_some_iff hwf hinv).2 ⟨hpf.shortestCodeAt hs tail, rfl⟩,
    fun a ha hpa => hpf.eq_of_prefix ha hs hpa (List.prefix_append _ _)⟩

/-- Where the longer of two codes begins the bits so does the shorter, which is not another copy of it. -/
theorem not_shortestCodeAt_of_prefix {t : CodeTable} (hdup : ¬ HasDuplicate t) {a b : Symbol}
    (hab : a ≠ b) (ha : CodeTable.read t a ≠ []) (hpre : CodeTable.read t a <+: CodeTable.read t b)
    (bits : List Bit) : ¬ ShortestCodeAt t bits b := fun ⟨_, hb, hmin⟩ =>
  hdup ⟨a, b, hab, ha, hpre.eq_of_length_le (hmin a ha (hpre.trans hb))⟩

/-- Settles O49: a match is the shortest code; the example is computed. -/
theorem longerCodeIsShadowedByItsPrefix : Obligations.LongerCodeIsShadowedByItsPrefix := by
  unfold Obligations.LongerCodeIsShadowedByItsPrefix
  refine ⟨fun t inv a b bits len hwf hinv hab ha hpre hmatch => ?_, by decide, by decide⟩
  exact not_shortestCodeAt_of_prefix (not_hasDuplicate_of_inverseMap hwf hinv) hab ha hpre bits
    ((shortestMatch_eq_some_iff hwf hinv).1 hmatch).1

/-! ## Messages (R158, R160) -/

/-- With no code beginning another, the codes of a message parse into it, whatever bits follow. -/
theorem PrefixFree.parses_concatCodes {t : CodeTable} (h : PrefixFree t) {msg : List Symbol}
    (hmsg : ∀ x ∈ msg, CodeTable.read t x ≠ []) (rest : List Bit) :
    Parses t (concatCodes t msg ++ rest) msg rest := by
  induction msg with
  | nil => exact .done rest
  | cons x msg ih =>
    rw [concatCodes_cons, List.append_assoc]
    exact .more x _ rest msg (h.shortestCodeAt (hmsg x (by simp)) _)
      (ih fun y hy => hmsg y (by simp [hy]))

/-- No code begins a part of a code that stops before its end. -/
theorem PrefixFree.noCodeAt_of_prefix {t : CodeTable} (h : PrefixFree t) {x : Symbol} {p : List Bit}
    (hx : CodeTable.read t x ≠ []) (hp : p <+: CodeTable.read t x) (hne : p ≠ CodeTable.read t x) :
    NoCodeAt t p := fun a ha hpa => by
  obtain rfl := h.eq_of_prefix ha hx (hpa.trans hp) List.prefix_rfl
  exact hne (hp.eq_of_length_le hpa.length_le)

/-- DECODE of the codes of a message, with no code beginning another. -/
theorem exec_decode_concatCodes {s : State} (hwf : CodeTable.wf s.ct) (hpf : PrefixFree s.ct)
    {msg : List Symbol} (hmsg : ∀ x ∈ msg, CodeTable.read s.ct x ≠ [])
    (hready : (concatCodes s.ct msg).length ≤ s.bi.length)
    (hbits : s.bi.take (concatCodes s.ct msg).length = concatCodes s.ct msg) :
    exec (.decode (concatCodes s.ct msg).length) s = .next (respond msg.length
      (emitSO msg { s with bi := s.bi.drop (concatCodes s.ct msg).length })) := by
  refine exec_decode_of_parses hready hwf (not_hasDuplicate_of_prefixFree hpf) ?_
  rw [hbits]
  simpa using hpf.parses_concatCodes hmsg []

/-- Settles O50: a built table has no code that begins another, and holds every symbol of the message. -/
theorem decodeOfEncodeAfterBuildIsTheMessage : Obligations.DecodeOfEncodeAfterBuildIsTheMessage := by
  unfold Obligations.DecodeOfEncodeAfterBuildIsTheMessage
  intro ne count k s t u hcount hready hbuild hct hk hmsg
  rw [exec_build_pos ne hcount hready] at hbuild
  cases hbuild
  have hpresent : ∀ x ∈ u.si.take k, CodeTable.read u.ct x ≠ [] := fun x hx =>
    hct ▸ read_buildTable_ne_nil_iff.2 (hmsg x hx)
  refine ⟨_, _, exec_encode_present hk hpresent, rfl, rfl, hct, fun x hxct hx hbits => ?_⟩
  obtain hxct : x.ct = u.ct := hxct
  rw [← hxct] at hx hbits hpresent ⊢
  have hwf : CodeTable.wf x.ct := hxct ▸ hct ▸ wf_buildTable _
  have hpf : PrefixFree x.ct := hxct ▸ hct ▸ prefixFree_buildTable _
  refine ⟨_, exec_decode_concatCodes hwf hpf hpresent hx hbits, rfl, ?_⟩
  simp [Nat.min_eq_left hk]

/-- Settles O51: the bits are the codes of the symbols before, and then nothing or a part of a code. -/
theorem prefixesOfAMessageDecodeOrAreTruncated : Obligations.PrefixesOfAMessageDecodeOrAreTruncated := by
  unfold Obligations.PrefixesOfAMessageDecodeOrAreTruncated
  intro msg k s hwf hpf hmsg
  have hbefore : ∀ x ∈ msg.take k, CodeTable.read s.ct x ≠ [] := fun x hx =>
    hmsg x (List.mem_of_mem_take hx)
  refine ⟨fun hready hbits => ?_, fun x p hx hp hpre hne hready hbits => ?_⟩
  · exact ⟨_, exec_decode_concatCodes hwf hpf hbefore hready hbits, rfl, rfl⟩
  · have hparse := hpf.parses_concatCodes hbefore p
    rw [← hbits] at hparse
    have hno := hpf.noCodeAt_of_prefix (hmsg x (List.mem_of_getElem? hx)) hpre hne
    exact ⟨_, exec_decode_of_noCodeAt hready hwf (not_hasDuplicate_of_prefixFree hpf) hparse hp hno,
      rfl, rfl⟩

end Sys2Proof.Machine

/-! SUPPORT. The trie traverser of R159: what a trie of codes holds at the end of each path, and
that the traversal of it ends as the code matcher's loop. -/

namespace Sys2Proof.Machine

/-! ## Paths in a trie -/

/-- The symbol whose code ends at a node. -/
def Trie.here : Trie → Option Symbol
  | .nil => none
  | .node h _ _ => h

/-- The node one edge below. -/
def Trie.child : Trie → Bit → Trie
  | .nil, _ => .nil
  | .node _ z o, b => if b then o else z

/-- The node at the end of a path. -/
def Trie.walk (tr : Trie) (path : List Bit) : Trie := path.foldl Trie.child tr

@[simp] theorem Trie.walk_empty (tr : Trie) : tr.walk [] = tr := rfl

@[simp] theorem Trie.walk_cons (tr : Trie) (b : Bit) (path : List Bit) :
    tr.walk (b :: path) = (tr.child b).walk path := rfl

theorem Trie.walk_append (tr : Trie) (p q : List Bit) : tr.walk (p ++ q) = (tr.walk p).walk q :=
  List.foldl_append

@[simp] theorem Trie.here_nil : Trie.nil.here = none := rfl

@[simp] theorem Trie.nil_walk (path : List Bit) : Trie.nil.walk path = .nil := by
  induction path with
  | nil => rfl
  | cons b path ih => exact ih

/-! ## The symbols a trie holds -/

section Insert

variable (s : Symbol) (tr : Trie) (c : Code) (b : Bit)

@[simp] theorem Trie.here_insert_empty : (tr.insert s []).here = some s := by
  cases tr <;> rfl

@[simp] theorem Trie.child_insert_empty : (tr.insert s []).child b = tr.child b := by
  cases tr <;> simp [Trie.insert, Trie.child]

@[simp] theorem Trie.here_insert_cons : (tr.insert s (b :: c)).here = tr.here := by
  cases tr <;> cases b <;> rfl

theorem Trie.child_insert_cons (b' : Bit) :
    (tr.insert s (b :: c)).child b' = if b' = b then (tr.child b).insert s c else tr.child b' := by
  cases tr <;> cases b <;> cases b' <;> rfl

end Insert

/-- An insertion sets the symbol at the end of its code, and no other. -/
theorem Trie.here_walk_insert (s : Symbol) (tr : Trie) (c q : Code) :
    ((tr.insert s c).walk q).here = if q = c then some s else (tr.walk q).here := by
  induction q generalizing tr c with
  | nil => cases c <;> simp
  | cons b q ih =>
    cases c with
    | nil => simp
    | cons b' c =>
      rw [Trie.walk_cons, Trie.child_insert_cons]
      by_cases hb : b = b'
      · subst hb
        simp [ih]
      · simp [hb]

/-- Entries with distinct codes, inserted in turn, are all in the trie. -/
theorem Trie.here_walk_foldl_insert {entries : CodeTable} (hcodes : (entries.map Prod.snd).Nodup)
    (tr : Trie) (q : Code) (s : Symbol) :
    ((entries.foldl (fun tr e => Trie.insert e.1 tr e.2) tr).walk q).here = some s ↔
      (s, q) ∈ entries ∨ q ∉ entries.map Prod.snd ∧ (tr.walk q).here = some s := by
  induction entries generalizing tr with
  | nil => simp
  | cons e entries ih =>
    obtain ⟨hnew, hcodes⟩ := List.nodup_cons.1 hcodes
    rw [List.foldl_cons, ih hcodes, Trie.here_walk_insert]
    by_cases hq : q = e.2
    · subst hq
      have hnot : (s, e.2) ∉ entries := fun h => hnew (List.mem_map.2 ⟨_, h, rfl⟩)
      simp [hnot, hnew, Prod.ext_iff, eq_comm]
    · simp [hq, Prod.ext_iff]

/-- The table's trie holds each code at the end of its path, and nothing else. -/
theorem Trie.here_walk_ofTable {t : CodeTable} (hwf : CodeTable.wf t) (hdup : ¬ HasDuplicate t)
    {q : Code} {s : Symbol} :
    ((Trie.ofTable t).walk q).here = some s ↔ q ≠ [] ∧ CodeTable.read t s = q := by
  have hcodes := inverseMap_eq_ok_iff.1 ((inverseMap_eq_ok_iff_not_hasDuplicate hwf).2 hdup)
  have hroot : ((Trie.node none .nil .nil).walk q).here ≠ some s := by
    rcases q with _ | ⟨_ | _, q⟩ <;> simp [Trie.here, Trie.child]
  rw [Trie.ofTable, Trie.here_walk_foldl_insert hcodes, ← mem_iff_read hwf]
  exact or_iff_left fun h => hroot h.2

/-! ## The traversal (R159) -/

section Edge

variable {root tr : Trie} {b : Bit} (left pos : Nat) (out : List Symbol) (bits : List Bit)

theorem traverse_missing (h : tr.child b = .nil) :
    traverse root tr left pos out (b :: bits) = .fail .truncatedSequence left := by
  cases tr with
  | nil => rfl
  | node here z o => rw [Trie.child] at h; rw [traverse, h]

theorem traverse_symbol {s : Symbol} (h : (tr.child b).here = some s) :
    traverse root tr left pos out (b :: bits) =
      traverse root root (pos + 1) (pos + 1) (out ++ [s]) bits := by
  cases tr with
  | nil => cases h
  | node here z o =>
    cases hchild : (if b then o else z) with
    | nil => simp [Trie.child, hchild] at h
    | node here' z' o' =>
      obtain rfl : here' = some s := by simpa [Trie.child, hchild, Trie.here] using h
      rw [traverse, hchild]

theorem traverse_edge (hchild : tr.child b ≠ .nil) (h : (tr.child b).here = none) :
    traverse root tr left pos out (b :: bits) = traverse root (tr.child b) left (pos + 1) out bits := by
  cases tr with
  | nil => exact absurd rfl hchild
  | node here z o =>
    rw [traverse, Trie.child]
    rw [Trie.child] at hchild h
    cases hc : (if b then o else z) with
    | nil => exact absurd hc hchild
    | node here' z' o' =>
      obtain rfl : here' = none := by simpa [hc, Trie.here] using h
      rfl

end Edge

/-- A code is the shortest one when no code ends on the way to its last bit. -/
theorem shortestCodeAt_of_read_eq {t : CodeTable} {path : List Bit} (hpath : NoCodeAt t path) {b : Bit}
    {s : Symbol} (hread : CodeTable.read t s = path ++ [b]) (bits : List Bit) :
    ShortestCodeAt t (CodeTable.read t s ++ bits) s := by
  refine ⟨by simp [hread], List.prefix_append _ _, fun a ha hpa => ?_⟩
  by_contra hshort
  have hlen : (CodeTable.read t a).length ≤ path.length := by
    rw [hread, List.length_append, List.length_singleton] at hshort
    omega
  rw [hread, List.append_assoc] at hpa
  exact hpath a ha (List.prefix_of_prefix_length_le hpa (List.prefix_append _ _) hlen)

section Traversal

variable {t : CodeTable} (hwf : CodeTable.wf t) {path : List Bit} (hpath : NoCodeAt t path)
include hwf hpath

theorem noCodeAt_of_here_eq_none (hdup : ¬ HasDuplicate t) {b : Bit}
    (h : ((Trie.ofTable t).walk (path ++ [b])).here = none) : NoCodeAt t (path ++ [b]) := by
  intro a ha hpa
  rcases List.prefix_concat_iff.1 hpa with heq | hpa
  · have hhere := (Trie.here_walk_ofTable hwf hdup).2 ⟨ha, rfl⟩
    rw [heq, h] at hhere
    cases hhere
  · exact hpath a ha hpa

theorem noCodeAt_of_walk_eq_nil (hdup : ¬ HasDuplicate t)
    (h : (Trie.ofTable t).walk path = .nil) (bits : List Bit) : NoCodeAt t (path ++ bits) := by
  intro a ha hpa
  rcases List.prefix_or_prefix_of_prefix hpa (List.prefix_append path bits) with hpre | ⟨more, hmore⟩
  · exact hpath a ha hpre
  · have hhere := (Trie.here_walk_ofTable hwf hdup).2 ⟨ha, rfl⟩
    rw [← hmore, Trie.walk_append, h, Trie.nil_walk] at hhere
    cases hhere

/-- From the node at the end of a path on which no code ends, the traversal does what the code matcher
does with the bits of the path and those that follow. -/
theorem traverse_eq_decodeLoop {inv : InvMap} (hinv : inverseMap t = .ok inv) {bits : List Bit}
    {k : Nat} (hk : (path ++ bits).length ≤ k) (left : Nat) (out : List Symbol) :
    traverse (Trie.ofTable t) ((Trie.ofTable t).walk path) left (left + path.length) out bits =
      decodeLoop inv k left out (path ++ bits) := by
  have hdup := not_hasDuplicate_of_inverseMap hwf hinv
  induction bits generalizing path k left out with
  | nil =>
    rw [List.append_nil]
    by_cases hempty : path = []
    · simp [hempty, traverse]
    · rw [decodeLoop_noCodeAt hwf hinv _ _ _ hempty hpath]
      simp [traverse, hempty]
  | cons b bits ih =>
    have hnode : ((Trie.ofTable t).walk path).child b = (Trie.ofTable t).walk (path ++ [b]) := by
      simp [Trie.walk_append]
    rw [List.append_cons] at hk ⊢
    cases hhere : ((Trie.ofTable t).walk (path ++ [b])).here with
    | some s =>
      obtain ⟨-, hread⟩ := (Trie.here_walk_ofTable hwf hdup).1 hhere
      simp only [List.length_append, List.length_singleton] at hk
      obtain ⟨j, rfl⟩ : ∃ j, k = j + 1 := ⟨k - 1, by omega⟩
      have hround := ih (noCodeAt_nil t) (k := j) (by rw [List.nil_append]; omega)
        (left + path.length + 1) (out ++ [s])
      rw [traverse_symbol _ _ _ _ (hnode ▸ hhere), ← hread,
        decodeLoop_match hwf hinv _ _ _ (shortestCodeAt_of_read_eq hpath hread bits), hread,
        List.length_append, List.length_singleton, ← Nat.add_assoc]
      exact hround
    | none =>
      have hpath' := noCodeAt_of_here_eq_none hwf hpath hdup hhere
      by_cases hmissing : (Trie.ofTable t).walk (path ++ [b]) = .nil
      · rw [traverse_missing _ _ _ _ (hnode.trans hmissing),
          decodeLoop_noCodeAt hwf hinv _ _ _ (by simp)
            (noCodeAt_of_walk_eq_nil hwf hpath' hdup hmissing bits)]
      · rw [traverse_edge _ _ _ _ (hnode ▸ hmissing) (hnode ▸ hhere), hnode, ← ih hpath' hk,
          List.length_append]
        rfl

end Traversal

theorem trieDecode_eq_decodeMessage {t : CodeTable} (hwf : CodeTable.wf t) (bits : List Bit) :
    trieDecode t bits = decodeMessage t bits := by
  cases hinv : inverseMap t with
  | ok inv =>
    rw [trieDecode, hinv, decodeMessage_of_inverseMap hinv]
    exact traverse_eq_decodeLoop hwf (noCodeAt_nil t) hinv le_rfl 0 []
  | fail e info => rw [trieDecode, decodeMessage, hinv]

/-- Settles O52: the traversal from the root is the matcher's loop, and no code is longer than 255. -/
theorem otherDecoderMechanismsAgree : Obligations.OtherDecoderMechanismsAgree := by
  unfold Obligations.OtherDecoderMechanismsAgree
  exact ⟨fun t bits hwf => trieDecode_eq_decodeMessage hwf bits,
    fun t inv rest hwf hinv => matchLoop_maxLen hwf hinv rest⟩

end Sys2Proof.Machine

/-! SUPPORT. LOADT, READT and CLRT (R170 to R174): what each does to CT, and a canonical table as what
READT reads from it. -/

namespace Sys2Proof.Machine

/-! ## Tables that read alike (R173, log entry 4) -/

/-- A canonical table is determined by what its entries read as: it lists exactly the present ones, in
one order. -/
theorem eq_of_read_eq {t u : CodeTable} (ht : CodeTable.wf t) (hu : CodeTable.wf u)
    (h : ∀ s, CodeTable.read t s = CodeTable.read u s) : t = u := by
  have hmem : ∀ e, e ∈ t ↔ e ∈ u := fun ⟨s, c⟩ => by rw [mem_iff_read ht, mem_iff_read hu, h]
  have hirrefl : Std.Irrefl fun a b : Symbol × Code => a.1 < b.1 := ⟨fun a => BitVec.lt_irrefl a.1⟩
  have hantisymm : Std.Antisymm fun a b : Symbol × Code => a.1 < b.1 :=
    ⟨fun _ _ hab hba => absurd hba (BitVec.lt_asymm hab)⟩
  exact ht.1.eq_of_mem_iff hu.1 hmem

/-- The last pair listed for a symbol in a canonical table, the only one, is what the symbol reads as. -/
theorem lastOf_getD_eq_read {t : CodeTable} (ht : CodeTable.wf t) (s : Symbol) :
    (lastOf s t).getD [] = CodeTable.read t s := by
  induction t with
  | nil => rfl
  | cons e t ih =>
    obtain ⟨k, c⟩ := e
    rw [lastOf_cons, read_cons]
    by_cases hk : k = s
    · subst hk
      have hnone : lastOf k t = none :=
        lastOf_eq_none_of_not_listed fun f hf => (BitVec.ne_of_lt (head_lt ht f hf)).symm
      simp [hnone]
    · simpa [hk] using ih (wf_tail ht)

/-- LDTBL of a canonical table's entries makes that table. -/
theorem ofPairs_insertPairs_of_wf {t : CodeTable} (ht : CodeTable.wf t) :
    CodeTable.ofPairs (insertPairs t []) = t := by
  have hlen : ∀ e ∈ t, e.2.length ≤ Config.maxLen := fun e he => (ht.2 e he).2
  refine eq_of_read_eq (wf_ofPairs fun e he => ?_) ht fun s => ?_
  · exact hlen e ((insertPairs_nil_perm t).mem_iff.1 he)
  · exact (read_ofPairs_insertPairs hlen s).trans (lastOf_getD_eq_read ht s)

/-- Settles O58: a canonical table is what it reads as, and LDTBL's lines load its entries. -/
theorem tableTransferGivesTheSameTable : Obligations.TableTransferGivesTheSameTable := by
  unfold Obligations.TableTransferGivesTheSameTable
  refine ⟨fun t u => eq_of_read_eq, fun t s ht hseq hcmd hsi hbi => ?_⟩
  have hlines := complete_ldtbl fun e he => (ht.2 e he).2
  exact ⟨_, run_sendAll ⟨hseq, hcmd, hsi, hbi⟩ hlines,
    (congrArg State.ct (foldl_answer_ldtbl t hseq)).trans (ofPairs_insertPairs_of_wf ht)⟩

/-! ## The three commands (R170, R172, R174) -/

/-- Settles O53: LOADT is one write to CT. -/
theorem loadtWritesOneEntry : Obligations.LoadtWritesOneEntry := by
  unfold Obligations.LoadtWritesOneEntry
  intro sym clen s hwf hclen
  refine ⟨CodeTable.write s.ct sym (s.bi.take clen), ?_, ?_, fun other hother => ?_⟩
  · rw [exec_loadt_ready hclen, loadtAct, respond, okRsp_zero]
  · rw [read_write hwf, if_pos rfl]
  · rw [read_write hwf, if_neg hother]

/-- Settles O55: a code of a canonical table fits OUTLEN. -/
theorem readtEmitsTheCode : Obligations.ReadtEmitsTheCode := by
  unfold Obligations.ReadtEmitsTheCode
  intro sym s hwf
  have hfits : (CodeTable.read s.ct sym).length < 2 ^ 40 :=
    (read_length_le hwf sym).trans_lt (by decide)
  obtain ⟨-, houtlen, -⟩ := responseWordsHoldTheirFields.2.1 _ hfits
  refine ⟨exec_readt, houtlen, ?_⟩
  rw [← BitVec.toNat_inj, ← List.length_eq_zero_iff, rspOutlen, houtlen, BitVec.toNat_zero]

/-- The register of an absent entry is zero (R22, R23). -/
@[simp] theorem entryWord_nil : entryWord [] = 0#263 := BitVec.zero_append_zero

/-- Settles O56: CLRT puts the empty table into CT, as BUILD of nothing does. -/
theorem clrtEmptiesTheTable : Obligations.ClrtEmptiesTheTable := by
  unfold Obligations.ClrtEmptiesTheTable
  intro s
  refine ⟨CodeTable.empty, ?_, fun sym => ?_, rfl, ?_⟩
  · rw [exec_clrt, respond, okRsp_zero]
  · rw [read_empty, entryWord_nil]
  · rw [exec_build_ready (Nat.zero_le _), exec_clrt]
    rfl

end Sys2Proof.Machine

/-! SUPPORT. Failed commands (R188, R190). -/

namespace Sys2Proof.Machine

@[simp] theorem rspOutlen_errRsp (e : Error) (info : Nat) : rspOutlen (errRsp e info) = 0#40 :=
  rspOutlen_packRsp _ _ _

/-- A command that does not answer OK has raised an error under the CT it found. -/
theorem effectIn_eq_fail {i : Instr} {s : State} (h : rspStatus (effectIn i s).rsp ≠ 0x00#8) :
    ∃ e info, effectIn i s = .fail s.ct e info := by
  rcases commandEffect_cases i s.ct (s.si.take (siNeed i)) (s.bi.take (biNeed i)) with
    ⟨ct, so, bo, hok⟩ | hfail
  · refine absurd ?_ h
    rw [effectIn, hok]
    exact rspStatus_okRsp _
  · exact hfail

/-- Settles O22: a failed command's effect is an error, and raising it only adds the response to the
state without the payload. -/
theorem failedCommandsChangeNothingElse : Obligations.FailedCommandsChangeNothingElse := by
  unfold Obligations.FailedCommandsChangeNothingElse
  refine ⟨fun i s t r hready hexec hrsp hstatus => ?_, fun s =>
    ⟨errRsp .illegalCommand 0, rfl, ?_, rspOutlen_errRsp _ _⟩⟩
  · obtain rfl : (effectIn i s).put (takePayload i s) = t := by
      injection (exec_ready hready).symm.trans hexec
    obtain rfl : (effectIn i s).rsp = r := by simpa using hrsp
    obtain ⟨e, info, hfail⟩ := effectIn_eq_fail hstatus
    rw [hfail]
    exact ⟨Effect.put_fail e info (takePayload i s), rspOutlen_errRsp e info⟩
  · rw [rspStatus_errRsp]
    decide

end Sys2Proof.Machine

/-! SUPPORT. The reset event and the empty table it leaves (R38, R200, R201). -/

namespace Sys2Proof.Machine

/-! ## Reset (R200) -/

@[simp] theorem hostMove_reset (s : State) : hostMove .reset s = State.reset := rfl

/-- Settles O8: reset discards the state it meets, and the register of an absent entry is zero. -/
theorem resetLeavesTheValuesOfTheTable : Obligations.ResetLeavesTheValuesOfTheTable := by
  unfold Obligations.ResetLeavesTheValuesOfTheTable
  intro s
  rw [hostMove_reset]
  exact ⟨rfl, fun _ => entryWord_nil, rfl, rfl, rfl, rfl, rfl, rfl, rfl⟩

/-! ## Commands on the empty table (R201) -/

section EmptyTable

variable {s : State} (hct : s.ct = CodeTable.empty)
include hct

theorem read_of_ct_eq_empty (sym : Symbol) : CodeTable.read s.ct sym = [] := by
  rw [hct, read_empty]

/-- ENCODE of a non-empty payload fails at its first symbol. -/
theorem exec_encode_empty_table {count : Nat} (hcount : 1 ≤ count) (hready : count ≤ s.si.length) :
    exec (.encode count) s = .next (raise .missingCode 0 { s with si := s.si.drop count }) := by
  obtain ⟨x, after, hinput⟩ : ∃ x after, s.si.take count = x :: after :=
    List.exists_cons_of_length_pos (by rw [List.length_take]; omega)
  exact exec_encode_absent (before := []) hready hinput (List.forall_mem_nil _)
    (read_of_ct_eq_empty hct x)

/-- READT emits nothing. -/
theorem exec_readt_empty_table (sym : Symbol) : exec (.readt sym) s = .next (respond 0 s) := by
  rw [exec_readt, read_of_ct_eq_empty hct, emitBO, List.append_nil, List.length_nil]

end EmptyTable

/-- Settles O21: nothing is present under the empty table, so a non-empty payload fails at its start;
each command leaves the sequencer idle, as it was. -/
theorem emptyTableIsUsable : Obligations.EmptyTableIsUsable := by
  unfold Obligations.EmptyTableIsUsable
  intro s hct hseq
  obtain ⟨hdecodeNothing, -, hdecodeBits⟩ := decodeEmptyCases
  refine ⟨?_, ?_, fun count hcount hready => ?_, fun count hcount hready => ?_, fun sym => ?_⟩
  · rw [encodeOfEmptyPayload s, ← hseq]
  · rw [hdecodeNothing s (hct ▸ wf_empty) (hct ▸ not_hasDuplicate_empty), ← hseq]
  · have hrsp : errRsp .missingCode 0 = 0x02000000000000000000#80 := by decide
    rw [exec_encode_empty_table hct hcount hready, raise, hrsp, ← hseq]
  · rw [hdecodeBits count s hct hcount hready, ← hseq]
  · rw [exec_readt_empty_table hct, respond, okRsp_zero, ← hseq]

end Sys2Proof.Machine
